-- ==== Sys2Proof/Word.lean ====
section
/-! DEFINITION. The word and register-number types of the NIMJAR processor, and its flag group. -/

namespace Sys2Proof

/-- One 16-bit pattern: a register, a memory location, an instruction word or an address (R5 `XLEN`, `WORD`,
`ALEN`; R7). Arithmetic on it is modulo `2^16`. -/
abbrev Word := BitVec 16

/-- A general register number, 0 to 7 (R13, R62; `NREGS` = 8 is the spec's decision D3, log 10). -/
abbrev RegIdx := BitVec 3

/-- The four condition flags N, Z, C, V (R20). -/
structure Flags where
  /-- Negative. -/
  n : Bool
  /-- Zero. -/
  z : Bool
  /-- Carry. -/
  c : Bool
  /-- Overflow. -/
  v : Bool
  deriving DecidableEq, Repr

end Sys2Proof
end

