-- ==== Sys2Proof/Syntax.lean ====
section
/-! DEFINITION. The decoded instructions: one constructor for each of the 38 instruction forms of R56, in its order. -/

namespace Sys2Proof

/-- An instruction form with its operands. `rd`, `rs`, `rt` are the register fields the source writes `d`, `s`, `t`
(in STORE `rd` is a source, R15); `simm5`, `simm11` are the short immediates as encoded, before extension (R59);
`simm16`, `imm16` are the second instruction word (R60). -/
inductive Instr where
  /-- `ADD d, s, t` (R71). -/
  | addReg (rd rs rt : RegIdx)
  /-- `ADD d, s, simm5` (R72). -/
  | addShort (rd rs : RegIdx) (simm5 : BitVec 5)
  /-- `ADD d, s, simm16` (R73). -/
  | addLong (rd rs : RegIdx) (simm16 : Word)
  /-- `SUB d, s, t` (R74). -/
  | subReg (rd rs rt : RegIdx)
  /-- `LSL d, simm5`: the field is an unsigned count (R75, R61). -/
  | lsl (rd : RegIdx) (count : BitVec 5)
  /-- `LSR d, simm5`: the field is an unsigned count (R76, R61). -/
  | lsr (rd : RegIdx) (count : BitVec 5)
  /-- `AND d, s, t` (R77). -/
  | andReg (rd rs rt : RegIdx)
  /-- `AND d, s, simm16` (R78). -/
  | andLong (rd rs : RegIdx) (simm16 : Word)
  /-- `NOT d, s` (R79). -/
  | notReg (rd rs : RegIdx)
  /-- `OR d, s, t` (R80). -/
  | orReg (rd rs rt : RegIdx)
  /-- `OR d, s, simm16` (R81). -/
  | orLong (rd rs : RegIdx) (simm16 : Word)
  /-- `XOR d, s, t` (R82). -/
  | xorReg (rd rs rt : RegIdx)
  /-- `XOR d, s, simm16` (R83). -/
  | xorLong (rd rs : RegIdx) (simm16 : Word)
  /-- `LOAD d, t(s)` (R91). -/
  | loadReg (rd rs rt : RegIdx)
  /-- `LOAD d, simm5(s)` (R92). -/
  | loadShort (rd rs : RegIdx) (simm5 : BitVec 5)
  /-- `LOAD d, simm16(s)` (R93). -/
  | loadLong (rd rs : RegIdx) (simm16 : Word)
  /-- `STORE d, t(s)` (R94). -/
  | storeReg (rd rs rt : RegIdx)
  /-- `STORE d, simm5(s)` (R95). -/
  | storeShort (rd rs : RegIdx) (simm5 : BitVec 5)
  /-- `STORE d, simm16(s)` (R96). -/
  | storeLong (rd rs : RegIdx) (simm16 : Word)
  /-- `PUSH s` (R100). -/
  | push (rs : RegIdx)
  /-- `POP d` (R101). -/
  | pop (rd : RegIdx)
  /-- `CALL s` (R106). -/
  | callReg (rs : RegIdx)
  /-- `CALL simm11` (R107). -/
  | callShort (simm11 : BitVec 11)
  /-- `CALL imm16` (R108). -/
  | callLong (imm16 : Word)
  /-- `RETURN` (R109). -/
  | ret
  /-- `RETI` (R112). -/
  | reti
  /-- `SFA` (R115). -/
  | sfa
  /-- `STI a` (R116). -/
  | sti (a : BitVec 1)
  /-- `JUMPR simm11` (R121). -/
  | jumpr (simm11 : BitVec 11)
  /-- `JUMPA s` (R122). -/
  | jumpaReg (rs : RegIdx)
  /-- `JUMPA imm16` (R123). -/
  | jumpaLong (imm16 : Word)
  /-- `JUMPV simm11` (R124). -/
  | jumpv (simm11 : BitVec 11)
  /-- `JUMPC simm11` (R125). -/
  | jumpc (simm11 : BitVec 11)
  /-- `JUMPnC simm11` (R126). -/
  | jumpnc (simm11 : BitVec 11)
  /-- `JUMPN simm11` (R127). -/
  | jumpn (simm11 : BitVec 11)
  /-- `JUMPnN simm11` (R128). -/
  | jumpnn (simm11 : BitVec 11)
  /-- `JUMPZ simm11` (R129). -/
  | jumpz (simm11 : BitVec 11)
  /-- `JUMPnZ simm11` (R130). -/
  | jumpnz (simm11 : BitVec 11)
  deriving DecidableEq, Repr

end Sys2Proof
end

