-- ==== Sys2Proof/WellFormed.lean ====
section
/-! DEFINITION. Which instruction terms the spec gives a meaning. Register numbers and immediates are well formed by
their types; the one field with values of no meaning is the shift count (R61). -/

namespace Sys2Proof

/-- LSL and LSR have a meaning for the counts 0 to 15 only (R61, D10); every other term is well formed. -/
def Instr.wellFormed (i : Instr) : Bool :=
  match i with
  | .lsl _ count | .lsr _ count => decide (count.toNat < 16)
  | .addReg .. | .addShort .. | .addLong .. | .subReg .. | .andReg .. | .andLong .. | .notReg .. | .orReg .. | .orLong ..
  | .xorReg .. | .xorLong .. | .loadReg .. | .loadShort .. | .loadLong .. | .storeReg .. | .storeShort .. | .storeLong ..
  | .push .. | .pop .. | .callReg .. | .callShort .. | .callLong .. | .ret | .reti | .sfa | .sti .. | .jumpr ..
  | .jumpaReg .. | .jumpaLong .. | .jumpv .. | .jumpc .. | .jumpnc .. | .jumpn .. | .jumpnn .. | .jumpz .. | .jumpnz .. => true

end Sys2Proof
end

