-- ==== Sys2Proof/Decode.lean ====
section
/-! DEFINITION. The decoder of R57 over 16-bit words, the encoder, and the table of R56 as rows of match and mask.
Every bit position here is the spec's own layout, decision D1 (log 9). -/

namespace Sys2Proof

/-- Why a first word selects no instruction form (R57, R63). -/
inductive Unlisted where
  /-- No form has the opcode: `unlisted_opcode`. -/
  | opcode
  /-- Forms have the opcode but none accepts the mode field: `unlisted_mode`. -/
  | mode
  /-- A form accepts opcode and mode but an unused bit is 1: `nonzero_unused_bits`. -/
  | unusedBits
  deriving DecidableEq, Repr

/-- Why a list of words gives no instruction. -/
inductive DecodeError where
  /-- The first word selects no form. -/
  | unlisted (why : Unlisted)
  /-- The list is empty. -/
  | noWords
  /-- The form has two words and the list holds only the first. -/
  | missingSecondWord
  deriving DecidableEq, Repr

/-- What a first word selects: a whole one-word instruction, or a two-word one that waits for its immediate. -/
inductive Head where
  | done (i : Instr)
  | needs (complete : Word → Instr)

/-- Bits `[hi:lo]` of an instruction word as a field of `len` bits, `len = hi - lo + 1` (R6). -/
def field (w : Word) (lo len : Nat) : BitVec len := w.extractLsb' lo len

/-- The opcode field `w0[15:11]` (R48). -/
def opcodeOf (w0 : Word) : BitVec 5 := field w0 11 5

/-- The `d` field `w0[10:8]` (R49, R50, R51, R55). -/
def dOf (w0 : Word) : RegIdx := field w0 8 3

/-- The `s` field `w0[7:5]` (R49, R50, R54, R55). -/
def sOf (w0 : Word) : RegIdx := field w0 5 3

/-- The `t` field `w0[4:2]` (R49). -/
def tOf (w0 : Word) : RegIdx := field w0 2 3

/-- The `mode` field `w0[1:0]` of Type1 and Type6 words (R49, R54). -/
def modeOf (w0 : Word) : BitVec 2 := field w0 0 2

/-- The 5-bit immediate or count `w0[4:0]` (R50, R51). -/
def imm5Of (w0 : Word) : BitVec 5 := field w0 0 5

/-- The 11-bit immediate `w0[10:0]` (R52). -/
def imm11Of (w0 : Word) : BitVec 11 := field w0 0 11

/-- The head `h` if the form's unused bits are all 0, else the refusal of R57 and D2. -/
def ifZero (unused : Bool) (h : Head) : Except Unlisted Head := if unused then .ok h else .error .unusedBits

/-- A Type1 0 form with the fields d, s, t, for an opcode whose long form (if any) has its own mode (R49). -/
def type1 (w0 : Word) (mode : BitVec 2) (reg : RegIdx → RegIdx → RegIdx → Instr)
    (long : RegIdx → RegIdx → Word → Instr) : Except Unlisted Head :=
  if modeOf w0 = 0 then .ok (.done (reg (dOf w0) (sOf w0) (tOf w0)))
  else if modeOf w0 = mode then ifZero (tOf w0 = 0) (.needs (long (dOf w0) (sOf w0)))
  else .error .mode

/-- A Type6 pair: the register form in mode 00, the two-word form in mode 01 (R54). -/
def type6 (w0 : Word) (reg : RegIdx → Instr) (long : Word → Instr) : Except Unlisted Head :=
  if modeOf w0 = 0 then ifZero (dOf w0 = 0 ∧ tOf w0 = 0) (.done (reg (sOf w0)))
  else if modeOf w0 = 1 then ifZero (dOf w0 = 0 ∧ sOf w0 = 0 ∧ tOf w0 = 0) (.needs long)
  else .error .mode

/-- A Type5 form: the 11 bits under the opcode are unused (R53). -/
def type5 (w0 : Word) (i : Instr) : Except Unlisted Head := ifZero (imm11Of w0 = 0) (.done i)

/-- The form a first word selects (R57), total on all 65536 words; it needs nothing of the processor's state. -/
def decodeHead (w0 : Word) : Except Unlisted Head :=
  match opcodeOf w0 with
  | 0b00000#5 =>
    if modeOf w0 = 0 then ifZero (tOf w0 = 0) (.done (.notReg (dOf w0) (sOf w0))) else .error .mode
  | 0b00001#5 =>
    if modeOf w0 = 0 then .ok (.done (.subReg (dOf w0) (sOf w0) (tOf w0))) else .error .mode
  | 0b00010#5 => type1 w0 1 .loadReg .loadLong
  | 0b00011#5 => type1 w0 1 .storeReg .storeLong
  | 0b00100#5 => type1 w0 2 .xorReg .xorLong
  | 0b00101#5 => type1 w0 2 .addReg .addLong
  | 0b00110#5 => type1 w0 2 .orReg .orLong
  | 0b00111#5 => type1 w0 2 .andReg .andLong
  | 0b01000#5 => ifZero (sOf w0 = 0) (.done (.lsr (dOf w0) (imm5Of w0)))
  | 0b01001#5 => ifZero (sOf w0 = 0) (.done (.lsl (dOf w0) (imm5Of w0)))
  | 0b01010#5 => ifZero (field w0 0 8 = 0) (.done (.pop (dOf w0)))
  | 0b01011#5 => ifZero (dOf w0 = 0 ∧ imm5Of w0 = 0) (.done (.push (sOf w0)))
  | 0b01101#5 => .ok (.done (.addShort (dOf w0) (sOf w0) (imm5Of w0)))
  | 0b01110#5 => .ok (.done (.loadShort (dOf w0) (sOf w0) (imm5Of w0)))
  | 0b01111#5 => .ok (.done (.storeShort (dOf w0) (sOf w0) (imm5Of w0)))
  | 0b10000#5 => type6 w0 .jumpaReg .jumpaLong
  | 0b10001#5 => type6 w0 .callReg .callLong
  | 0b10010#5 => ifZero (field w0 1 10 = 0) (.done (.sti (field w0 0 1)))
  | 0b10011#5 => .ok (.done (.callShort (imm11Of w0)))
  | 0b10100#5 => type5 w0 .ret
  | 0b10101#5 => type5 w0 .reti
  | 0b10110#5 => type5 w0 .sfa
  | 0b11000#5 => .ok (.done (.jumpv (imm11Of w0)))
  | 0b11001#5 => .ok (.done (.jumpc (imm11Of w0)))
  | 0b11010#5 => .ok (.done (.jumpz (imm11Of w0)))
  | 0b11011#5 => .ok (.done (.jumpn (imm11Of w0)))
  | 0b11100#5 => .ok (.done (.jumpr (imm11Of w0)))
  | 0b11101#5 => .ok (.done (.jumpnc (imm11Of w0)))
  | 0b11110#5 => .ok (.done (.jumpnz (imm11Of w0)))
  | 0b11111#5 => .ok (.done (.jumpnn (imm11Of w0)))
  | _ => .error .opcode

/-- The instruction at the head of a list of words and the words after it; the immediate of a two-word form is the
word that follows (R46, R57). Total on any list. -/
def decode (ws : List Word) : Except DecodeError (Instr × List Word) :=
  match ws with
  | [] => .error .noWords
  | w0 :: rest =>
    match decodeHead w0 with
    | .error why => .error (.unlisted why)
    | .ok (.done i) => .ok (i, rest)
    | .ok (.needs complete) =>
      match rest with
      | [] => .error .missingSecondWord
      | imm :: rest' => .ok (complete imm, rest')

/-- The 5-bit opcode of a form (the source's "Opcode:" lines, R56). -/
def Instr.opcode (i : Instr) : BitVec 5 :=
  match i with
  | .notReg .. => 0b00000#5
  | .subReg .. => 0b00001#5
  | .loadReg .. | .loadLong .. => 0b00010#5
  | .storeReg .. | .storeLong .. => 0b00011#5
  | .xorReg .. | .xorLong .. => 0b00100#5
  | .addReg .. | .addLong .. => 0b00101#5
  | .orReg .. | .orLong .. => 0b00110#5
  | .andReg .. | .andLong .. => 0b00111#5
  | .lsr .. => 0b01000#5
  | .lsl .. => 0b01001#5
  | .pop .. => 0b01010#5
  | .push .. => 0b01011#5
  | .addShort .. => 0b01101#5
  | .loadShort .. => 0b01110#5
  | .storeShort .. => 0b01111#5
  | .jumpaReg .. | .jumpaLong .. => 0b10000#5
  | .callReg .. | .callLong .. => 0b10001#5
  | .sti .. => 0b10010#5
  | .callShort .. => 0b10011#5
  | .ret => 0b10100#5
  | .reti => 0b10101#5
  | .sfa => 0b10110#5
  | .jumpv .. => 0b11000#5
  | .jumpc .. => 0b11001#5
  | .jumpz .. => 0b11010#5
  | .jumpn .. => 0b11011#5
  | .jumpr .. => 0b11100#5
  | .jumpnc .. => 0b11101#5
  | .jumpnz .. => 0b11110#5
  | .jumpnn .. => 0b11111#5

/-- The format names of the source (R47); the figures themselves are lost. -/
inductive Format where
  | type1v0 | type1v1 | type1v2 | type2 | type3 | type4 | type5 | type6v0 | type6v1 | type7push | type7pop | type8
  deriving DecidableEq, Repr

/-- The format the source assigns to a form (R47, R56). -/
def Instr.format (i : Instr) : Format :=
  match i with
  | .addReg .. | .subReg .. | .andReg .. | .orReg .. | .xorReg .. | .notReg .. | .loadReg .. | .storeReg .. => .type1v0
  | .loadLong .. | .storeLong .. => .type1v1
  | .addLong .. | .andLong .. | .orLong .. | .xorLong .. => .type1v2
  | .addShort .. | .loadShort .. | .storeShort .. => .type2
  | .lsl .. | .lsr .. => .type3
  | .callShort .. | .jumpr .. | .jumpv .. | .jumpc .. | .jumpnc .. | .jumpn .. | .jumpnn .. | .jumpz .. | .jumpnz .. => .type4
  | .ret | .reti | .sfa => .type5
  | .callReg .. | .jumpaReg .. => .type6v0
  | .callLong .. | .jumpaLong .. => .type6v1
  | .push .. => .type7push
  | .pop .. => .type7pop
  | .sti .. => .type8

/-- The length of a form in words: two for the eight forms with a 16-bit immediate, else one (R46). -/
def Instr.length (i : Instr) : Nat :=
  match i with
  | .addLong .. | .andLong .. | .orLong .. | .xorLong .. | .loadLong .. | .storeLong .. | .callLong .. | .jumpaLong .. => 2
  | .addReg .. | .addShort .. | .subReg .. | .lsl .. | .lsr .. | .andReg .. | .notReg .. | .orReg .. | .xorReg ..
  | .loadReg .. | .loadShort .. | .storeReg .. | .storeShort .. | .push .. | .pop .. | .callReg .. | .callShort ..
  | .ret | .reti | .sfa | .sti .. | .jumpr .. | .jumpaReg .. | .jumpv .. | .jumpc .. | .jumpnc .. | .jumpn .. | .jumpnn ..
  | .jumpz .. | .jumpnz .. => 1

/-- The 11 bits under the opcode in the first word of a form, unused bits 0 (R49 to R55, D1, D2). -/
def Instr.operandBits (i : Instr) : BitVec 11 :=
  match i with
  | .addReg d s t | .subReg d s t | .andReg d s t | .orReg d s t | .xorReg d s t | .loadReg d s t | .storeReg d s t =>
    d ++ s ++ t ++ 0b00#2
  | .notReg d s => d ++ s ++ 0#3 ++ 0b00#2
  | .loadLong d s _ | .storeLong d s _ => d ++ s ++ 0#3 ++ 0b01#2
  | .addLong d s _ | .andLong d s _ | .orLong d s _ | .xorLong d s _ => d ++ s ++ 0#3 ++ 0b10#2
  | .addShort d s k | .loadShort d s k | .storeShort d s k => d ++ s ++ k
  | .lsl d n | .lsr d n => d ++ 0#3 ++ n
  | .callShort k | .jumpr k | .jumpv k | .jumpc k | .jumpnc k | .jumpn k | .jumpnn k | .jumpz k | .jumpnz k => k
  | .ret | .reti | .sfa => 0#11
  | .callReg s | .jumpaReg s => 0#3 ++ s ++ 0#3 ++ 0b00#2
  | .callLong _ | .jumpaLong _ => 0#3 ++ 0#3 ++ 0#3 ++ 0b01#2
  | .push s => 0#3 ++ s ++ 0#5
  | .pop d => d ++ 0#8
  | .sti a => 0#10 ++ a

/-- The second word of a two-word form (R46, R60). -/
def Instr.secondWord (i : Instr) : Option Word :=
  match i with
  | .addLong _ _ k | .andLong _ _ k | .orLong _ _ k | .xorLong _ _ k | .loadLong _ _ k | .storeLong _ _ k | .callLong k
  | .jumpaLong k => some k
  | .addReg .. | .addShort .. | .subReg .. | .lsl .. | .lsr .. | .andReg .. | .notReg .. | .orReg .. | .xorReg ..
  | .loadReg .. | .loadShort .. | .storeReg .. | .storeShort .. | .push .. | .pop .. | .callReg .. | .callShort ..
  | .ret | .reti | .sfa | .sti .. | .jumpr .. | .jumpaReg .. | .jumpv .. | .jumpc .. | .jumpnc .. | .jumpn .. | .jumpnn ..
  | .jumpz .. | .jumpnz .. => none

/-- The first word of a form: opcode in bits 15 to 11 (R48), operand bits under it. -/
def Instr.firstWord (i : Instr) : Word := i.opcode ++ i.operandBits

/-- The words of an instruction, in address order (R32, R56). -/
def encode (i : Instr) : List Word := i.firstWord :: i.secondWord.toList

/-- One row of the table of R56: a first word `w0` selects it when `w0 &&& mask = pattern`; `length` is its length in words. -/
structure Row where
  pattern : Word
  mask : Word
  length : Nat
  deriving DecidableEq, Repr

/-- The columns match, mask and L of R56 for the arithmetic and logic forms (rows 1 to 13). -/
def aluRows : List Row :=
  [⟨0x2800, 0xF803, 1⟩, ⟨0x6800, 0xF800, 1⟩, ⟨0x2802, 0xF81F, 2⟩, ⟨0x0800, 0xF803, 1⟩, ⟨0x4800, 0xF8E0, 1⟩,
   ⟨0x4000, 0xF8E0, 1⟩, ⟨0x3800, 0xF803, 1⟩, ⟨0x3802, 0xF81F, 2⟩, ⟨0x0000, 0xF81F, 1⟩, ⟨0x3000, 0xF803, 1⟩,
   ⟨0x3002, 0xF81F, 2⟩, ⟨0x2000, 0xF803, 1⟩, ⟨0x2002, 0xF81F, 2⟩]

/-- The same columns for the memory, stack, call and system forms (rows 14 to 28). -/
def memoryAndCallRows : List Row :=
  [⟨0x1000, 0xF803, 1⟩, ⟨0x7000, 0xF800, 1⟩, ⟨0x1001, 0xF81F, 2⟩, ⟨0x1800, 0xF803, 1⟩, ⟨0x7800, 0xF800, 1⟩,
   ⟨0x1801, 0xF81F, 2⟩, ⟨0x5800, 0xFF1F, 1⟩, ⟨0x5000, 0xF8FF, 1⟩, ⟨0x8800, 0xFF1F, 1⟩, ⟨0x9800, 0xF800, 1⟩,
   ⟨0x8801, 0xFFFF, 2⟩, ⟨0xA000, 0xFFFF, 1⟩, ⟨0xA800, 0xFFFF, 1⟩, ⟨0xB000, 0xFFFF, 1⟩, ⟨0x9000, 0xFFFE, 1⟩]

/-- The same columns for the jumps (rows 29 to 38). -/
def jumpRows : List Row :=
  [⟨0xE000, 0xF800, 1⟩, ⟨0x8000, 0xFF1F, 1⟩, ⟨0x8001, 0xFFFF, 2⟩, ⟨0xC000, 0xF800, 1⟩, ⟨0xC800, 0xF800, 1⟩,
   ⟨0xE800, 0xF800, 1⟩, ⟨0xD800, 0xF800, 1⟩, ⟨0xF800, 0xF800, 1⟩, ⟨0xD000, 0xF800, 1⟩, ⟨0xF000, 0xF800, 1⟩]

/-- The 38 rows of R56, in its order. -/
def opcodeRows : List Row := aluRows ++ memoryAndCallRows ++ jumpRows

/-- A first word selects a row (R56). -/
def Row.selectedBy (r : Row) (w0 : Word) : Bool := w0 &&& r.mask = r.pattern

/-- The two words of an instruction whose low `nbits` bits are `w` and whose further bits are 0: bits 15 to 0 are the
first word, bits 31 to 16 the second. -/
def tableWords (nbits w : Nat) : Word × Word :=
  let bits := w % 2 ^ nbits
  (BitVec.ofNat 16 bits, BitVec.ofNat 16 (bits / 2 ^ 16))

/-- The instruction the decoder reads from an instruction whose bits are `w`, numbered as spec/opcode_table.json
numbers them. -/
def decodeTableWord (nbits w : Nat) : Option Instr :=
  let words := tableWords nbits w
  match decode [words.1, words.2] with
  | .ok (i, _) => some i
  | .error _ => none

end Sys2Proof
end

