-- ==== Sys2Proof/Config.lean ====
section
/-! DEFINITION. What is fixed for a run but not by the spec: the OPEN parameters of R5, uninterpreted, and the free
levels of the interrupt request line. Nothing in Lean can evaluate the four opaque constants, so a proof holds for every value. -/

namespace Sys2Proof

/-- The identity of the hardware (R1); `none` where the source states none. -/
structure Identity where
  name : String
  vendor : Option String
  version : Option String
  deriving DecidableEq, Repr

/-- The NIMJAR processor: no vendor and no version is stated (R1). -/
def identity : Identity where
  name := "NIMJAR"
  vendor := none
  version := none

/-- What `FLAGS_UNPACK` gives for a memory word (R22): the four condition flags, and IE or "unchanged" (`none`). -/
structure Unpacked where
  flags : Flags
  ie : Option Bool
  deriving DecidableEq, Repr

/-- A layout of the `flags` word: the pair `FLAGS_PACK`, `FLAGS_UNPACK` with the one law that R22 assumes of them. -/
structure FlagsLayout where
  /-- `FLAGS_PACK` of the four condition flags and IE. -/
  pack : Flags → Bool → Word
  /-- `FLAGS_UNPACK` of a memory word. -/
  unpack : Word → Unpacked
  /-- Unpacking inverts packing; IE comes back as it was or as "unchanged" (R22). -/
  lawful : ∀ f ie, (unpack (pack f ie)).flags = f ∧
    ((unpack (pack f ie)).ie = some ie ∨ (unpack (pack f ie)).ie = none)

/-- The illustrative layout of 92_eei_decisions.md D12: bit 0 N, bit 1 Z, bit 2 C, bit 3 V, bit 4 IE, the rest zero on
pack and ignored on unpack. It shows that lawful layouts exist and serves tests; the machine does not use it. -/
def FlagsLayout.illustrative : FlagsLayout where
  pack f ie := 0#11 ++ BitVec.ofBool ie ++ BitVec.ofBool f.v ++ BitVec.ofBool f.c ++ BitVec.ofBool f.z ++ BitVec.ofBool f.n
  unpack w := ⟨⟨w.getLsbD 0, w.getLsbD 1, w.getLsbD 2, w.getLsbD 3⟩, some (w.getLsbD 4)⟩
  lawful := by
    intro ⟨n, z, c, v⟩ ie
    cases n <;> cases z <;> cases c <;> cases v <;> cases ie <;> decide

/-- Some lawful layout, given that one exists; it has no body, so nothing is known of it but its type. -/
opaque Config.someFlagsLayout [Inhabited FlagsLayout] : FlagsLayout

/-- `FLAGS_PACK` and `FLAGS_UNPACK` of the machine: OPEN, uninterpreted but for the law (R22, D12; log 6). -/
def Config.flagsLayout : FlagsLayout :=
  letI : Inhabited FlagsLayout := ⟨FlagsLayout.illustrative⟩
  Config.someFlagsLayout

/-- `INT_VECTOR`: the address the pc takes on interrupt entry, OPEN (R147, D13; log 7). -/
opaque Config.intVector : Word

/-- The level of the request line `irq` at the instruction boundary with this number, where the launch gives none: a
free value (R144, U9; log 5). -/
opaque Config.irqFree : Nat → Bool

end Sys2Proof
end

