-- ==== Sys2Proof/Machine/State.lean ====
section
/-! DEFINITION. The state of the machine as plain data (R28), the reasons a step stops, and the state after reset. -/

namespace Sys2Proof.Machine

/-- Memory: (cell address, byte) pairs. The word at word address `a` is the two cells `2 * a` (bits 7 to 0) and
`2 * a + 1` (bits 15 to 8); no instruction sees a cell, only words (R24, R31, R32; log 1). An address that is not listed
holds no value (R172; log 2). -/
abbrev Memory := List Host.Cell

/-- A set of word addresses as a list, canonical when strictly rising (R26). -/
abbrev AddrSet := List Nat

/-- The launch premise on how memory is organised (R5 `MEM_ORG`, R43; log 4). -/
inductive MemOrg where
  /-- The launch states one memory for instructions and data: every store is seen by every later fetch (R43, last sentence). -/
  | unified
  /-- The launch states nothing: the two refusals of R43 guard what one and two memories would do differently. -/
  | notStated
  deriving DecidableEq, Repr

/-- The whole state of the processor, the environment's input to it and the bookkeeping of R26 (R28). -/
structure State where
  /-- General registers x[0] to x[7] (R13). -/
  regs : Vector Word 8
  /-- Program counter: the address of the next instruction's first word (R16, R17). -/
  pc : Word
  /-- Stack pointer: the address of the word most recently pushed (R18, R19). -/
  sp : Word
  /-- The flags N, Z, C, V (R20). -/
  flags : Flags
  /-- The interrupt enable flag IE (R20). -/
  ie : Bool
  /-- Memory (R24). -/
  mem : Memory
  /-- `MEM_WORDS`: the launch memory has storage below this address only; no step changes it (R5; log 20). -/
  memWords : Nat
  /-- The addresses below it that the launch memory leaves out, such as a device's (R38); no step changes them (log 20). -/
  excluded : AddrSet
  /-- The launch premise on the organisation of memory; no step changes it (R43; log 4). -/
  memOrg : MemOrg
  /-- The addresses the launch marked as program words (R26). -/
  text : AddrSet
  /-- The addresses written since launch (R26). -/
  written : AddrSet
  /-- The levels of the request line `irq` at this boundary (the head) and the following ones, as far as the launch gives
  them; past its end each level is free (R25, R144; log 5). -/
  irqInput : List Bool
  /-- How many instruction boundaries have passed: the index of the free level of `irq` (log 5). -/
  boundary : Nat
  deriving DecidableEq, Repr

/-- Why the machine stops with a fault. -/
inductive Fault where
  /-- Raised by a data read, a pop or an instruction fetch at a word that nothing has given a value (R172, D24). Safe: the
  spec itself faults here. -/
  | readOfUnwrittenWord (address : Word)
  /-- Raised by a data access, a push, an interrupt entry or a fetch at an address outside the launch memory, where the
  spec leaves the model stuck (R90, R141, U12; log 20). Safe: the machine stops. -/
  | accessOutsideLaunchMemory (address : Word)
  deriving DecidableEq, Repr

/-- Why the machine refuses to go on: the spec gives the case no meaning (R11). -/
inductive Refusal where
  /-- Raised by `exec` for an instruction that has no meaning in the model yet; no arm uses it. Safe. -/
  | notModelled (mnemonic : String)
  /-- Raised by the fetch of a first word with opcode 01100 or 10111: `unlisted_opcode` (R57, R63, D11). Safe. -/
  | unlistedOpcode
  /-- Raised by the fetch of a first word with a mode no form of its opcode has: `unlisted_mode` (R57, R63, D11). Safe. -/
  | unlistedMode
  /-- Raised by the fetch of a first word with an unused bit at 1: `nonzero_unused_bits` (R57, R63, D2). Safe. -/
  | nonzeroUnusedBits
  /-- Raised by LSL and LSR with a count of 16 to 31: `shift_count_16_to_31` (R61, R75, R76, D10). Safe. -/
  | shiftCount16To31
  /-- Raised by the fetch of a word written since launch, where the launch does not state a unified memory:
  `fetch_of_written_word` (R43, D7). Safe. -/
  | fetchOfWrittenWord
  /-- Raised by a data read of program text not since written, where the launch does not state a unified memory:
  `load_of_program_text` (R43, D7). Safe. -/
  | loadOfProgramText
  deriving DecidableEq, Repr

/-- The outcome of an instruction or a step. -/
abbrev Result := Host.Outcome State Fault Refusal

/-- The launch state before anything is placed in it. The spec gives no reset value at all (R27, R165, R166): the zeros
of the registers, pc, sp and flags are the model's (DESIGN CHOICE, log 3), as are the premise `unified` (log 4) and the
empty input script (log 5). The launch memory is whole, `MEM_WORDS` at the value
R5 documents, and no word of it holds a value (R172). -/
def State.reset : State where
  regs := Vector.replicate 8 0#16
  pc := 0#16
  sp := 0#16
  flags := ⟨false, false, false, false⟩
  ie := false
  mem := []
  memWords := 65536
  excluded := []
  memOrg := .unified
  text := []
  written := []
  irqInput := []
  boundary := 0

end Sys2Proof.Machine
end

