-- ==== Sys2Proof/Machine/Flags.lean ====
section
/-! DEFINITION. Every flag computation of the spec (R21, R70, R71, R74). -/

namespace Sys2Proof.Machine

/-- The source's C line of ADD: `(a[15] & b[15]) | (!r[15] & (a[15] | b[15]))` (R21, R71). -/
def carryLine (a b r : Word) : Bool :=
  (a.getLsbD 15 && b.getLsbD 15) || (!r.getLsbD 15 && (a.getLsbD 15 || b.getLsbD 15))

/-- The source's V line of ADD: `(a[15] & b[15] & !r[15]) | (!a[15] & !b[15] & r[15])` (R21, R71). -/
def overflowLine (a b r : Word) : Bool :=
  (a.getLsbD 15 && b.getLsbD 15 && !r.getLsbD 15) || (!a.getLsbD 15 && !b.getLsbD 15 && r.getLsbD 15)

/-- The flags an arithmetic or logic form leaves: N and Z of the result, C and V as the form says (R70). -/
def flagsOf (r : Word) (c v : Bool) : Flags := ⟨r.getLsbD 15, r == 0#16, c, v⟩

/-- The flags ADD leaves for operands `a`, `b` and sum `r` (R71). -/
def addFlags (a b r : Word) : Flags := flagsOf r (carryLine a b r) (overflowLine a b r)

/-- `SUB_CV`: C and V after SUB for operands `a`, `b` and difference `r`. Its documented value is the pair of formulas as
printed, which are ADD's (R74, D9, C4; UNVERIFIED, log 13). -/
def subCV (a b r : Word) : Bool × Bool := (carryLine a b r, overflowLine a b r)

/-- The flags SUB leaves for operands `a`, `b` and difference `r`, under a value `cv` of the parameter `SUB_CV` (R74). -/
def subFlags (cv : Word → Word → Word → Bool × Bool) (a b r : Word) : Flags := flagsOf r (cv a b r).1 (cv a b r).2

/-- The flags a shift or a logic form leaves: C and V are 0 (R75 to R83). -/
def logicFlags (r : Word) : Flags := flagsOf r false false

end Sys2Proof.Machine
end

