-- ==== Sys2Proof/Machine/Ops.lean ====
section
/-! DEFINITION. The named operations over registers and memory, the stack, taking an interrupt and returning from one,
instruction fetch, and what ends a step. -/

namespace Sys2Proof.Machine

/-! ### Sets of addresses -/

/-- The numbers of a list rise strictly. -/
def rising : List Nat → Bool
  | [] => true
  | [_] => true
  | a :: b :: rest => decide (a < b) && rising (b :: rest)

/-- Put an address into a rising set. -/
def AddrSet.add : AddrSet → Nat → AddrSet
  | [], a => [a]
  | k :: rest, a => if a < k then a :: k :: rest else if a = k then k :: rest else k :: AddrSet.add rest a

/-- Take an address out of a set. -/
def AddrSet.remove (set : AddrSet) (a : Nat) : AddrSet := set.filter (fun k => k != a)

/-- The set is in canonical form: strictly rising word addresses. -/
def AddrSet.wf (set : AddrSet) : Bool := rising set && set.all (fun k => decide (k < 65536))

/-! ### Memory -/

/-- The byte in a cell, if one is listed. -/
def Memory.readByte : Memory → Nat → Option (BitVec 8)
  | [], _ => none
  | (k, x) :: rest, a => if k = a then some x else Memory.readByte rest a

/-- Put a byte into a cell, keeping the cells in rising order. -/
def Memory.writeByte : Memory → Nat → BitVec 8 → Memory
  | [], a, b => [(a, b)]
  | (k, x) :: rest, a, b =>
    if a < k then (a, b) :: (k, x) :: rest
    else if a = k then (a, b) :: rest
    else (k, x) :: Memory.writeByte rest a b

/-- The other cell of the word a cell belongs to. -/
def partnerCell (k : Nat) : Nat := if k % 2 = 0 then k + 1 else k - 1

/-- The canonical form of memory: cell addresses strictly rising, inside the 65536 words, and no word half listed. -/
def Memory.wf (m : Memory) : Bool :=
  rising (m.map Prod.fst) &&
    m.all (fun cell => decide (cell.1 < 131072) && (Memory.readByte m (partnerCell cell.1)).isSome)

/-- `MemRead` (R33): the word at a word address, `none` where it holds no value (R172). -/
def Memory.readWord (m : Memory) (a : Word) : Option Word :=
  match Memory.readByte m (2 * a.toNat), Memory.readByte m (2 * a.toNat + 1) with
  | some low, some high => some (high ++ low)
  | _, _ => none

/-- `MemWrite` (R34): replace the word at a word address. -/
def Memory.writeWord (m : Memory) (a v : Word) : Memory :=
  Memory.writeByte (Memory.writeByte m (2 * a.toNat) (v.extractLsb' 0 8)) (2 * a.toNat + 1) (v.extractLsb' 8 8)

/-! ### Registers and the parts of the state -/

/-- Read a general register (R8). -/
def State.reg (s : State) (r : RegIdx) : Word := s.regs[r.toNat]'(r.isLt)

/-- Write a general register; none is hardwired (R8, R14). -/
def State.setReg (s : State) (r : RegIdx) (v : Word) : State := { s with regs := s.regs.set r.toNat v r.isLt }

/-- Set the program counter. -/
def State.setPc (s : State) (a : Word) : State := { s with pc := a }

/-- Set the stack pointer. -/
def State.setSp (s : State) (a : Word) : State := { s with sp := a }

/-- Set the flags N, Z, C, V. -/
def State.setFlags (s : State) (f : Flags) : State := { s with flags := f }

/-- Set IE. -/
def State.setIe (s : State) (b : Bool) : State := { s with ie := b }

/-- The address of the next sequential instruction after one of `len` words, modulo `2^16` (R8, R17, D5). -/
def State.npc (s : State) (len : Nat) : Word := s.pc + BitVec.ofNat 16 len

/-- Leave `pc = npc` (R17). -/
def State.advance (s : State) (len : Nat) : State := s.setPc (s.npc len)

/-- The word at an address, `none` where it holds no value. -/
def State.word? (s : State) (a : Word) : Option Word := Memory.readWord s.mem a

/-- `MemWrite` by the processor: the word and the `written` set (R34, R26). -/
def State.storeWord (s : State) (a v : Word) : State :=
  { s with mem := Memory.writeWord s.mem a v, written := AddrSet.add s.written a.toNat }

/-- The launch memory has storage at an address (R5, R38). -/
def State.hasStorage (s : State) (a : Word) : Bool := decide (a.toNat < s.memWords) && !s.excluded.contains a.toNat

/-- What an access at `a` needs before all else: storage there, without which the model is stuck (R90, R141, U12). -/
def State.needStorage (s : State) (a : Word) (r : Result) : Result :=
  if s.hasStorage a then r else .fault (.accessOutsideLaunchMemory a)

/-- A data write (STORE), handing the state on: stuck outside the launch memory, else the word is written (R34). -/
def State.writeData (s : State) (a v : Word) (andThen : State → Result) : Result :=
  s.needStorage a (andThen (s.storeWord a v))

/-- R43 refuses a data read here: no unified memory is stated and the word is program text not since written. -/
def State.textGuards (s : State) (a : Word) : Bool :=
  s.memOrg == .notStated && s.text.contains a.toNat && !s.written.contains a.toNat

/-- R43 refuses a fetch here: no unified memory is stated and the word has been written since launch. -/
def State.writtenGuards (s : State) (a : Word) : Bool := s.memOrg == .notStated && s.written.contains a.toNat

/-- A data read (LOAD, POP, RETURN, RETI), handing the word on: stuck outside the launch memory, refused by R43, a fault
by R172, else the word (R33). -/
def State.readData (s : State) (a : Word) (andThen : Word → Result) : Result :=
  s.needStorage a
    (if s.textGuards a then .refused .loadOfProgramText
    else
      match s.word? a with
      | some v => andThen v
      | none => .fault (.readOfUnwrittenWord a))

/-- A fetch of one instruction word, handing it on: stuck outside the launch memory, refused by R43, a fault by R172,
else the word (R33). -/
def State.fetchWord (s : State) (a : Word) (andThen : Word → Result) : Result :=
  s.needStorage a
    (if s.writtenGuards a then .refused .fetchOfWrittenWord
    else
      match s.word? a with
      | some v => andThen v
      | none => .fault (.readOfUnwrittenWord a))

/-! ### The stack -/

/-- The state a push leaves: `sp` decremented, the word at the new `sp` (R19, R100). -/
def State.pushWord (s : State) (v : Word) : State := (s.setSp (s.sp - 1#16)).storeWord (s.sp - 1#16) v

/-- Push a word, handing the state on: stuck where the new `sp` is outside the launch memory (R19, R100). -/
def State.pushData (s : State) (v : Word) (andThen : State → Result) : Result :=
  s.needStorage (s.sp - 1#16) (andThen (s.pushWord v))

/-- Pop a word: read at `sp`, then increment `sp` (R19, R101). -/
def State.popWord (s : State) (andThen : Word → State → Result) : Result :=
  s.readData s.sp fun v => andThen v (s.setSp (s.sp + 1#16))

/-! ### Results of the arithmetic and logic forms -/

/-- Write a result and the four flags and leave `pc = npc` (R70). -/
def State.writeResult (s : State) (len : Nat) (rd : RegIdx) (r : Word) (f : Flags) : State :=
  ((s.setReg rd r).setFlags f).advance len

/-! ### Taking an interrupt and returning from one -/

/-- `IE_ON_ENTRY`: IE after interrupt entry, cleared (R147, D13; log 8). -/
def ieOnEntry : Bool := false

/-- The state interrupt entry leaves (R147) for a flags layout and a vector: pc pushed, the packed flags and IE pushed,
IE cleared, pc at the vector. The general registers and N, Z, C, V stay. -/
def State.interruptEntry (s : State) (layout : FlagsLayout) (vector : Word) : State :=
  (((s.pushWord s.pc).pushWord (layout.pack s.flags s.ie)).setIe ieOnEntry).setPc vector

/-- Take an interrupt (R147): stuck where one of the two pushes falls outside the launch memory, the first one first. -/
def State.takeInterrupt (s : State) (layout : FlagsLayout) (vector : Word) : Result :=
  s.pushData s.pc fun s1 => s1.pushData (layout.pack s.flags s.ie) fun _ => .next (s.interruptEntry layout vector)

/-- Restore the flags a `flags` word holds, and IE if the layout carries it (R22, R112). -/
def State.restoreFlags (s : State) (u : Unpacked) : State := (s.setFlags u.flags).setIe (u.ie.getD s.ie)

/-- Return from an interrupt (R112, R149): pop the flags word, pop the return address, restore the flags, go there. -/
def State.interruptReturn (s : State) (layout : FlagsLayout) : Result :=
  s.popWord fun flagsWord s1 => s1.popWord fun target s2 => .next ((s2.restoreFlags (layout.unpack flagsWord)).setPc target)

/-! ### Steps -/

/-- The level of the request line `n` boundaries from this one: what the launch scripted, else a free value (R25, R144,
U9; log 5). -/
def State.irqAfter (s : State) (n : Nat) : Bool := (s.irqInput[n]?).getD (Config.irqFree (s.boundary + n))

/-- The level of the request line at this boundary. -/
def State.irq (s : State) : Bool := s.irqAfter 0

/-- The interrupt condition, tested at every instruction boundary (R146). -/
def State.interruptCondition (s : State) : Bool := s.ie && s.irq

/-- Go to the next instruction boundary: the environment's next level of `irq` stands (R144). -/
def State.nextBoundary (s : State) : State := { s with irqInput := s.irqInput.tail, boundary := s.boundary + 1 }

/-- Pass to the next boundary after an instruction that completed. -/
def endStep (r : Result) : Result :=
  match r with
  | .next s => .next s.nextBoundary
  | .fault f => .fault f
  | .refused why => .refused why

/-- The refusal for a first word that selects no form (R57). -/
def refusalOf (why : Unlisted) : Refusal :=
  match why with
  | .opcode => .unlistedOpcode
  | .mode => .unlistedMode
  | .unusedBits => .nonzeroUnusedBits

/-- Fetch and decode the instruction at pc and run `run` on it; the second word is read only for a two-word form (R17, R44). -/
def State.fetchInstr (s : State) (run : Instr → Result) : Result :=
  s.fetchWord s.pc fun w0 =>
    match decodeHead w0 with
    | .error why => .refused (refusalOf why)
    | .ok (.done i) => run i
    | .ok (.needs complete) => s.fetchWord (s.pc + 1#16) fun imm => run (complete imm)

/-- The state with two program words placed at pc by the host before the run (R173): the launch memory takes in their
addresses, the launch marks them as program text and they count as not written since (R26), and no request stands at
this boundary. Where an address placed lies at or above a narrowed `MEM_WORDS`, `memWords` is raised to just past it, so
that every address in between that is not excluded gains storage too (DESIGN CHOICE, log 17: the spec is silent). -/
def State.placeProgram (s : State) (w0 w1 : Word) : State :=
  { s with
    mem := Memory.writeWord (Memory.writeWord s.mem s.pc w0) (s.pc + 1#16) w1
    memWords := max s.memWords (max (s.pc.toNat + 1) ((s.pc + 1#16).toNat + 1))
    excluded := AddrSet.remove (AddrSet.remove s.excluded s.pc.toNat) (s.pc + 1#16).toNat
    text := AddrSet.add (AddrSet.add s.text s.pc.toNat) (s.pc + 1#16).toNat
    written := AddrSet.remove (AddrSet.remove s.written s.pc.toNat) (s.pc + 1#16).toNat
    irqInput := if s.ie then false :: s.irqInput.tail else s.irqInput }

end Sys2Proof.Machine
end

