-- ==== Sys2Proof/Machine/Operands.lean ====
section
/-! DEFINITION. Every operand form: the sign-extended short immediates, the effective addresses of LOAD and STORE and
the targets of the relative jumps and calls (R37, R59, R60, R97, R120). -/

namespace Sys2Proof.Machine

/-- Sign extension of a short immediate to 16 bits (R8 `sext_16`, R59). -/
def sext16 {len : Nat} (k : BitVec len) : Word := k.signExtend 16

/-- Effective address `x[s] + x[t]` (R91, R94). -/
def State.eaReg (s : State) (rs rt : RegIdx) : Word := s.reg rs + s.reg rt

/-- Effective address `x[s] + sext_16(simm5)` (R92, R95). -/
def State.eaShort (s : State) (rs : RegIdx) (simm5 : BitVec 5) : Word := s.reg rs + sext16 simm5

/-- Effective address `x[s] + imm16` (R93, R96). -/
def State.eaLong (s : State) (rs : RegIdx) (simm16 : Word) : Word := s.reg rs + simm16

/-- Target of a one-word relative transfer: `npc + sext_16(simm11)` (R107, R120; for CALL the base is D8, log 12). -/
def State.relTarget (s : State) (simm11 : BitVec 11) : Word := s.npc 1 + sext16 simm11

/-- Target of a conditional relative jump: taken, or the fall-through `npc` (R120). -/
def State.condTarget (s : State) (taken : Bool) (simm11 : BitVec 11) : Word := if taken then s.relTarget simm11 else s.npc 1

end Sys2Proof.Machine
end

