-- ==== Sys2Proof/Machine/Alu.lean ====
section
/-! DEFINITION. The arithmetic, shift and logic forms (40_arithmetic_logic.md, R70 to R83). -/

namespace Sys2Proof.Machine

/-- What the three ADD forms share: the sum, its flags, npc (R71). -/
def State.addInto (s : State) (len : Nat) (rd : RegIdx) (a b : Word) : State :=
  s.writeResult len rd (a + b) (addFlags a b (a + b))

/-- What SUB does under a value `cv` of `SUB_CV`: the difference, its flags, npc (R74). -/
def State.subInto (s : State) (cv : Word → Word → Word → Bool × Bool) (rd : RegIdx) (a b : Word) : State :=
  s.writeResult 1 rd (a - b) (subFlags cv a b (a - b))

/-- What the shift and logic forms share: the result, N and Z of it, C = V = 0, npc (R70). -/
def State.logicInto (s : State) (len : Nat) (rd : RegIdx) (r : Word) : State := s.writeResult len rd r (logicFlags r)

/-- What LSL and LSR share: the refusal of counts 16 to 31 (R61, D10; log 14). -/
def State.shiftInto (s : State) (rd : RegIdx) (count : BitVec 5) (shift : Word → Nat → Word) : Result :=
  if 16 ≤ count.toNat then .refused .shiftCount16To31 else .next (s.logicInto 1 rd (shift (s.reg rd) count.toNat))

/-- ADD d, s, t (R71). -/
def execAddReg (rd rs rt : RegIdx) (s : State) : Result := .next (s.addInto 1 rd (s.reg rs) (s.reg rt))

/-- ADD d, s, simm5 (R72). -/
def execAddShort (rd rs : RegIdx) (simm5 : BitVec 5) (s : State) : Result := .next (s.addInto 1 rd (s.reg rs) (sext16 simm5))

/-- ADD d, s, simm16 (R73). -/
def execAddLong (rd rs : RegIdx) (simm16 : Word) (s : State) : Result := .next (s.addInto 2 rd (s.reg rs) simm16)

/-- SUB d, s, t (R74), at the documented value of `SUB_CV`. -/
def execSubReg (rd rs rt : RegIdx) (s : State) : Result := .next (s.subInto subCV rd (s.reg rs) (s.reg rt))

/-- LSL d, simm5: zeros enter at bit 0, the bits shifted out are lost (R75). -/
def execLsl (rd : RegIdx) (count : BitVec 5) (s : State) : Result := s.shiftInto rd count (fun a n => a <<< n)

/-- LSR d, simm5: zeros enter at bit 15 (R76). -/
def execLsr (rd : RegIdx) (count : BitVec 5) (s : State) : Result := s.shiftInto rd count (fun a n => a >>> n)

/-- AND d, s, t (R77). -/
def execAndReg (rd rs rt : RegIdx) (s : State) : Result := .next (s.logicInto 1 rd (s.reg rs &&& s.reg rt))

/-- AND d, s, simm16 (R78). -/
def execAndLong (rd rs : RegIdx) (simm16 : Word) (s : State) : Result := .next (s.logicInto 2 rd (s.reg rs &&& simm16))

/-- NOT d, s: the complement of all 16 bits (R79, C6). -/
def execNotReg (rd rs : RegIdx) (s : State) : Result := .next (s.logicInto 1 rd (~~~ s.reg rs))

/-- OR d, s, t (R80). -/
def execOrReg (rd rs rt : RegIdx) (s : State) : Result := .next (s.logicInto 1 rd (s.reg rs ||| s.reg rt))

/-- OR d, s, simm16 (R81). -/
def execOrLong (rd rs : RegIdx) (simm16 : Word) (s : State) : Result := .next (s.logicInto 2 rd (s.reg rs ||| simm16))

/-- XOR d, s, t (R82). -/
def execXorReg (rd rs rt : RegIdx) (s : State) : Result := .next (s.logicInto 1 rd (s.reg rs ^^^ s.reg rt))

/-- XOR d, s, simm16 (R83). -/
def execXorLong (rd rs : RegIdx) (simm16 : Word) (s : State) : Result := .next (s.logicInto 2 rd (s.reg rs ^^^ simm16))

end Sys2Proof.Machine
end

