-- ==== Sys2Proof/Machine/CallReturn.lean ====
section
/-! DEFINITION. CALL, RETURN and RETI (43_call_return.md, R105 to R112). -/

namespace Sys2Proof.Machine

/-- What the three CALL forms share: push the return address npc, then go to the target (R105, C3). -/
def State.callTo (s : State) (len : Nat) (target : Word) : Result :=
  s.pushData (s.npc len) fun s1 => .next (s1.setPc target)

/-- CALL s: the target is read before anything is written (R106). -/
def execCallReg (rs : RegIdx) (s : State) : Result := s.callTo 1 (s.reg rs)

/-- CALL simm11: relative to npc (R107, D8; log 12). -/
def execCallShort (simm11 : BitVec 11) (s : State) : Result := s.callTo 1 (s.relTarget simm11)

/-- CALL imm16: the return address is past the immediate word (R108). -/
def execCallLong (imm16 : Word) (s : State) : Result := s.callTo 2 imm16

/-- RETURN (R109). -/
def execRet (s : State) : Result := s.popWord fun target s1 => .next (s1.setPc target)

/-- RETI (R112): the return from interrupt, with the machine's own flags layout. -/
def execReti (s : State) : Result := s.interruptReturn Config.flagsLayout

end Sys2Proof.Machine
end

