-- ==== Sys2Proof/Machine/Jumps.lean ====
section
/-! DEFINITION. The ten jump forms (45_jumps.md, R120 to R131): each changes pc and nothing else. -/

namespace Sys2Proof.Machine

/-- JUMPR simm11 (R121). -/
def execJumpr (simm11 : BitVec 11) (s : State) : Result := .next (s.setPc (s.relTarget simm11))

/-- JUMPA s (R122). -/
def execJumpaReg (rs : RegIdx) (s : State) : Result := .next (s.setPc (s.reg rs))

/-- JUMPA imm16 (R123). -/
def execJumpaLong (imm16 : Word) (s : State) : Result := .next (s.setPc imm16)

/-- JUMPV: taken when V is set (R124). -/
def execJumpv (simm11 : BitVec 11) (s : State) : Result := .next (s.setPc (s.condTarget s.flags.v simm11))

/-- JUMPC: taken when C is set (R125). -/
def execJumpc (simm11 : BitVec 11) (s : State) : Result := .next (s.setPc (s.condTarget s.flags.c simm11))

/-- JUMPnC: taken when C is clear (R126). -/
def execJumpnc (simm11 : BitVec 11) (s : State) : Result := .next (s.setPc (s.condTarget (!s.flags.c) simm11))

/-- JUMPN: taken when N is set (R127). -/
def execJumpn (simm11 : BitVec 11) (s : State) : Result := .next (s.setPc (s.condTarget s.flags.n simm11))

/-- JUMPnN: taken when N is clear (R128). -/
def execJumpnn (simm11 : BitVec 11) (s : State) : Result := .next (s.setPc (s.condTarget (!s.flags.n) simm11))

/-- JUMPZ: taken when Z is set (R129). -/
def execJumpz (simm11 : BitVec 11) (s : State) : Result := .next (s.setPc (s.condTarget s.flags.z simm11))

/-- JUMPnZ: taken when Z is clear (R130). -/
def execJumpnz (simm11 : BitVec 11) (s : State) : Result := .next (s.setPc (s.condTarget (!s.flags.z) simm11))

end Sys2Proof.Machine
end

