-- ==== Sys2Proof/Machine/LoadStore.lean ====
section
/-! DEFINITION. LOAD and STORE (41_load_store.md, R90 to R97). -/

namespace Sys2Proof.Machine

/-- What the three LOAD forms share: the word at `ea` to `x[d]`, npc, no flag (R90, R91). -/
def State.loadInto (s : State) (len : Nat) (rd : RegIdx) (ea : Word) : Result :=
  s.readData ea fun v => .next ((s.setReg rd v).advance len)

/-- What the three STORE forms share: `x[d]` to the word at `ea`, npc, no flag (R90, R94). -/
def State.storeFrom (s : State) (len : Nat) (rd : RegIdx) (ea : Word) : Result :=
  s.writeData ea (s.reg rd) fun s1 => .next (s1.advance len)

/-- LOAD d, t(s) (R91). -/
def execLoadReg (rd rs rt : RegIdx) (s : State) : Result := s.loadInto 1 rd (s.eaReg rs rt)

/-- LOAD d, simm5(s) (R92). -/
def execLoadShort (rd rs : RegIdx) (simm5 : BitVec 5) (s : State) : Result := s.loadInto 1 rd (s.eaShort rs simm5)

/-- LOAD d, simm16(s) (R93). -/
def execLoadLong (rd rs : RegIdx) (simm16 : Word) (s : State) : Result := s.loadInto 2 rd (s.eaLong rs simm16)

/-- STORE d, t(s) (R94). -/
def execStoreReg (rd rs rt : RegIdx) (s : State) : Result := s.storeFrom 1 rd (s.eaReg rs rt)

/-- STORE d, simm5(s) (R95). -/
def execStoreShort (rd rs : RegIdx) (simm5 : BitVec 5) (s : State) : Result := s.storeFrom 1 rd (s.eaShort rs simm5)

/-- STORE d, simm16(s) (R96). -/
def execStoreLong (rd rs : RegIdx) (simm16 : Word) (s : State) : Result := s.storeFrom 2 rd (s.eaLong rs simm16)

end Sys2Proof.Machine
end

