-- ==== Sys2Proof/Machine/Stack.lean ====
section
/-! DEFINITION. PUSH and POP (42_stack.md, R100, R101). -/

namespace Sys2Proof.Machine

/-- PUSH s (R100). -/
def execPush (rs : RegIdx) (s : State) : Result := s.pushData (s.reg rs) fun s1 => .next (s1.advance 1)

/-- POP d (R101). -/
def execPop (rd : RegIdx) (s : State) : Result := s.popWord fun v s1 => .next ((s1.setReg rd v).advance 1)

end Sys2Proof.Machine
end

