-- ==== Sys2Proof/Machine/System.lean ====
section
/-! DEFINITION. SFA and STI (44_system.md, R115, R116). -/

namespace Sys2Proof.Machine

/-- SFA: nothing but npc (R115). -/
def execSfa (s : State) : Result := .next (s.advance 1)

/-- STI a: IE takes the operand (R116). -/
def execSti (a : BitVec 1) (s : State) : Result := .next ((s.setIe (a == 1#1)).advance 1)

end Sys2Proof.Machine
end

