-- ==== Sys2Proof/Machine/Dispatch.lean ====
section
/-! DEFINITION. The one match over the instruction forms: each arm calls its meaning. -/

namespace Sys2Proof.Machine

/-- The meaning of an instruction (R8, R17): run on the state in which it was fetched. -/
def exec (i : Instr) (s : State) : Host.Outcome State Fault Refusal :=
  match i with
  | .addReg rd rs rt => Sys2Proof.Machine.execAddReg rd rs rt s
  | .addShort rd rs simm5 => Sys2Proof.Machine.execAddShort rd rs simm5 s
  | .addLong rd rs simm16 => Sys2Proof.Machine.execAddLong rd rs simm16 s
  | .subReg rd rs rt => Sys2Proof.Machine.execSubReg rd rs rt s
  | .lsl rd count => Sys2Proof.Machine.execLsl rd count s
  | .lsr rd count => Sys2Proof.Machine.execLsr rd count s
  | .andReg rd rs rt => Sys2Proof.Machine.execAndReg rd rs rt s
  | .andLong rd rs simm16 => Sys2Proof.Machine.execAndLong rd rs simm16 s
  | .notReg rd rs => Sys2Proof.Machine.execNotReg rd rs s
  | .orReg rd rs rt => Sys2Proof.Machine.execOrReg rd rs rt s
  | .orLong rd rs simm16 => Sys2Proof.Machine.execOrLong rd rs simm16 s
  | .xorReg rd rs rt => Sys2Proof.Machine.execXorReg rd rs rt s
  | .xorLong rd rs simm16 => Sys2Proof.Machine.execXorLong rd rs simm16 s
  | .loadReg rd rs rt => Sys2Proof.Machine.execLoadReg rd rs rt s
  | .loadShort rd rs simm5 => Sys2Proof.Machine.execLoadShort rd rs simm5 s
  | .loadLong rd rs simm16 => Sys2Proof.Machine.execLoadLong rd rs simm16 s
  | .storeReg rd rs rt => Sys2Proof.Machine.execStoreReg rd rs rt s
  | .storeShort rd rs simm5 => Sys2Proof.Machine.execStoreShort rd rs simm5 s
  | .storeLong rd rs simm16 => Sys2Proof.Machine.execStoreLong rd rs simm16 s
  | .push rs => Sys2Proof.Machine.execPush rs s
  | .pop rd => Sys2Proof.Machine.execPop rd s
  | .callReg rs => Sys2Proof.Machine.execCallReg rs s
  | .callShort simm11 => Sys2Proof.Machine.execCallShort simm11 s
  | .callLong imm16 => Sys2Proof.Machine.execCallLong imm16 s
  | .ret => Sys2Proof.Machine.execRet s
  | .reti => Sys2Proof.Machine.execReti s
  | .sfa => Sys2Proof.Machine.execSfa s
  | .sti a => Sys2Proof.Machine.execSti a s
  | .jumpr simm11 => Sys2Proof.Machine.execJumpr simm11 s
  | .jumpaReg rs => Sys2Proof.Machine.execJumpaReg rs s
  | .jumpaLong imm16 => Sys2Proof.Machine.execJumpaLong imm16 s
  | .jumpv simm11 => Sys2Proof.Machine.execJumpv simm11 s
  | .jumpc simm11 => Sys2Proof.Machine.execJumpc simm11 s
  | .jumpnc simm11 => Sys2Proof.Machine.execJumpnc simm11 s
  | .jumpn simm11 => Sys2Proof.Machine.execJumpn simm11 s
  | .jumpnn simm11 => Sys2Proof.Machine.execJumpnn simm11 s
  | .jumpz simm11 => Sys2Proof.Machine.execJumpz simm11 s
  | .jumpnz simm11 => Sys2Proof.Machine.execJumpnz simm11 s

end Sys2Proof.Machine
end

