-- ==== Sys2Proof/Machine/Step.lean ====
section
/-! DEFINITION. One step of the processor (R17), and the placing of one instruction where the next step fetches it. -/

namespace Sys2Proof.Machine

/-- One step (R17): interrupt entry if the interrupt condition holds (R146, R147), else the instruction at pc; then the
next instruction boundary. -/
def step (s : State) : Host.Outcome State Fault Refusal :=
  if s.interruptCondition then endStep (s.takeInterrupt Config.flagsLayout Config.intVector)
  else endStep (s.fetchInstr fun i => exec i s)

/-- The state with the instruction whose bits are `w` stored where the next step fetches it (log 17). -/
def State.withFetchWord (s : State) (nbits w : Nat) : State :=
  s.placeProgram (tableWords nbits w).1 (tableWords nbits w).2

end Sys2Proof.Machine
end

