-- ==== Sys2Proof/Machine/Accesses.lean ====
section
/-! DEFINITION. The memory accesses of one step, in the order of R44: the event history a claim about order may use. -/

namespace Sys2Proof.Machine

/-- One access to memory. -/
inductive Access where
  /-- The fetch of an instruction word. -/
  | fetch (address : Word)
  /-- A data read. -/
  | read (address : Word)
  /-- A write of a word. -/
  | write (address value : Word)
  deriving DecidableEq, Repr

/-- The data accesses of an instruction at a state, in the order of its pseudocode: at most one, but for RETI's two
(R44, R97). -/
def dataAccesses (i : Instr) (s : State) : List Access :=
  match i with
  | .loadReg _ rs rt => [.read (s.eaReg rs rt)]
  | .loadShort _ rs k => [.read (s.eaShort rs k)]
  | .loadLong _ rs k => [.read (s.eaLong rs k)]
  | .storeReg rd rs rt => [.write (s.eaReg rs rt) (s.reg rd)]
  | .storeShort rd rs k => [.write (s.eaShort rs k) (s.reg rd)]
  | .storeLong rd rs k => [.write (s.eaLong rs k) (s.reg rd)]
  | .push rs => [.write (s.sp - 1#16) (s.reg rs)]
  | .callReg .. | .callShort .. => [.write (s.sp - 1#16) (s.npc 1)]
  | .callLong .. => [.write (s.sp - 1#16) (s.npc 2)]
  | .pop .. | .ret => [.read s.sp]
  | .reti => [.read s.sp, .read (s.sp + 1#16)]
  | .addReg .. | .addShort .. | .addLong .. | .subReg .. | .lsl .. | .lsr .. | .andReg .. | .andLong .. | .notReg ..
  | .orReg .. | .orLong .. | .xorReg .. | .xorLong .. | .sfa | .sti .. | .jumpr .. | .jumpaReg .. | .jumpaLong ..
  | .jumpv .. | .jumpc .. | .jumpnc .. | .jumpn .. | .jumpnn .. | .jumpz .. | .jumpnz .. => []

/-- The two writes of interrupt entry: the return address, then the flags word (R44, R147). -/
def State.entryAccesses (s : State) (layout : FlagsLayout) : List Access :=
  [.write (s.sp - 1#16) s.pc, .write (s.sp - 1#16 - 1#16) (layout.pack s.flags s.ie)]

/-- The accesses of one step that goes on: interrupt entry's, or the fetch of one or two words and the instruction's. -/
def State.stepAccesses (s : State) : List Access :=
  if s.interruptCondition then s.entryAccesses Config.flagsLayout
  else
    .fetch s.pc :: match s.word? s.pc with
      | none => []
      | some w0 =>
        match decodeHead w0 with
        | .error _ => []
        | .ok (.done i) => dataAccesses i s
        | .ok (.needs complete) =>
          .fetch (s.pc + 1#16) :: match s.word? (s.pc + 1#16) with
            | none => []
            | some imm => dataAccesses (complete imm) s

/-- Memory after one access. -/
def Access.applyTo (m : Memory) (access : Access) : Memory :=
  match access with
  | .fetch _ | .read _ => m
  | .write a v => Memory.writeWord m a v

end Sys2Proof.Machine
end

