-- ==== Sys2Proof/Safety.lean ====
section
/-! DEFINITION. The terms claims use: what an instruction leaves unchanged, the whole effect of each shape of
instruction, the tables of R15, R18 and R21, the invariant of the model, the end of a run, and the two-memory machine of R43. -/

namespace Sys2Proof.Machine

/-! ### What stays -/

/-- The general registers are unchanged. -/
def SameRegs (s t : State) : Prop := ∀ k, t.reg k = s.reg k

/-- The general registers but `rd` are unchanged. -/
def SameRegsExcept (s t : State) (rd : RegIdx) : Prop := ∀ k, k ≠ rd → t.reg k = s.reg k

/-- Every word of memory reads as before. -/
def SameMemory (s t : State) : Prop := ∀ a, t.word? a = s.word? a

/-- Every word of memory but the one at `ea` reads as before. -/
def SameMemoryExcept (s t : State) (ea : Word) : Prop := ∀ a, a ≠ ea → t.word? a = s.word? a

/-- The launch premises, the environment's input and the boundary number are unchanged: no instruction touches them. -/
def SameEnvironment (s t : State) : Prop :=
  t.memWords = s.memWords ∧ t.excluded = s.excluded ∧ t.memOrg = s.memOrg ∧ t.text = s.text ∧ t.irqInput = s.irqInput ∧
    t.boundary = s.boundary

/-- The `written` set has gained the address `ea` and no other (R34). -/
def WrittenGains (s t : State) (ea : Word) : Prop := ∀ k, k ∈ t.written ↔ k = ea.toNat ∨ k ∈ s.written

/-! ### The whole effect of each shape of instruction -/

/-- An arithmetic or logic form of `len` words took `s` to `t`: the result `r` in `rd`, N and Z of `r`, C and V as given,
pc past the instruction; nothing else changed (R70). -/
structure ResultEffect (s t : State) (len : Nat) (rd : RegIdx) (r : Word) (c v : Bool) : Prop where
  result : t.reg rd = r
  otherRegs : SameRegsExcept s t rd
  negative : t.flags.n = r.getLsbD 15
  zero : t.flags.z = decide (r = 0#16)
  carry : t.flags.c = c
  overflow : t.flags.v = v
  pc : t.pc = s.pc + BitVec.ofNat 16 len
  sp : t.sp = s.sp
  ie : t.ie = s.ie
  memory : SameMemory s t
  written : t.written = s.written
  environment : SameEnvironment s t

/-- A LOAD of `len` words took `s` to `t`: the word `v` in `rd`, pc past the instruction; nothing else changed (R90). -/
structure LoadEffect (s t : State) (len : Nat) (rd : RegIdx) (v : Word) : Prop where
  loaded : t.reg rd = v
  otherRegs : SameRegsExcept s t rd
  flags : t.flags = s.flags
  pc : t.pc = s.pc + BitVec.ofNat 16 len
  sp : t.sp = s.sp
  ie : t.ie = s.ie
  memory : SameMemory s t
  written : t.written = s.written
  environment : SameEnvironment s t

/-- A storing instruction took `s` to `t`: the word `v` at `ea`, `sp` and `pc` as given; nothing else changed. -/
structure StoreEffect (s t : State) (ea v sp pc : Word) : Prop where
  stored : t.word? ea = some v
  otherWords : SameMemoryExcept s t ea
  regs : SameRegs s t
  flags : t.flags = s.flags
  pc : t.pc = pc
  sp : t.sp = sp
  ie : t.ie = s.ie
  written : WrittenGains s t ea
  environment : SameEnvironment s t

/-- An instruction that moves only `pc`, and `sp` to the value given, took `s` to `t`. -/
structure TransferEffect (s t : State) (sp pc : Word) : Prop where
  pc : t.pc = pc
  sp : t.sp = sp
  regs : SameRegs s t
  flags : t.flags = s.flags
  ie : t.ie = s.ie
  memory : SameMemory s t
  written : t.written = s.written
  environment : SameEnvironment s t

/-- The form has this opcode, format and length, as its rule prints them (R47, R56). -/
def HasForm (i : Instr) (op : BitVec 5) (fmt : Format) (len : Nat) : Prop :=
  i.opcode = op ∧ i.format = fmt ∧ (encode i).length = len

/-- A data read at `a` answers the word `v`: there is storage, R43 does not refuse it and the word holds that value. -/
def State.Reads (s : State) (a v : Word) : Prop := s.hasStorage a = true ∧ s.textGuards a = false ∧ s.word? a = some v

/-- A fetch at `a` answers the word `v`: there is storage, R43 does not refuse it and the word holds that value. -/
def State.Fetches (s : State) (a v : Word) : Prop := s.hasStorage a = true ∧ s.writtenGuards a = false ∧ s.word? a = some v

/-- A LOAD form with destination `rd` and effective address `ea` (R97). -/
def LoadsAt (i : Instr) (s : State) (rd : RegIdx) (ea : Word) : Prop :=
  (∃ rs rt, i = .loadReg rd rs rt ∧ ea = s.eaReg rs rt) ∨ (∃ rs k, i = .loadShort rd rs k ∧ ea = s.eaShort rs k) ∨
  (∃ rs k, i = .loadLong rd rs k ∧ ea = s.eaLong rs k)

/-- A STORE form of the register `rd` with effective address `ea` (R97). -/
def StoresAt (i : Instr) (s : State) (rd : RegIdx) (ea : Word) : Prop :=
  (∃ rs rt, i = .storeReg rd rs rt ∧ ea = s.eaReg rs rt) ∨ (∃ rs k, i = .storeShort rd rs k ∧ ea = s.eaShort rs k) ∨
  (∃ rs k, i = .storeLong rd rs k ∧ ea = s.eaLong rs k)

/-! ### The tables of R15, R18, R21 and R97 -/

/-- The general register a form writes, if any (R15). -/
def writtenReg (i : Instr) : Option RegIdx :=
  match i with
  | .addReg d _ _ | .addShort d _ _ | .addLong d _ _ | .subReg d _ _ | .lsl d _ | .lsr d _ | .andReg d _ _ | .andLong d _ _
  | .notReg d _ | .orReg d _ _ | .orLong d _ _ | .xorReg d _ _ | .xorLong d _ _ | .loadReg d _ _ | .loadShort d _ _
  | .loadLong d _ _ | .pop d => some d
  | .storeReg .. | .storeShort .. | .storeLong .. | .push .. | .callReg .. | .callShort .. | .callLong .. | .ret | .reti
  | .sfa | .sti .. | .jumpr .. | .jumpaReg .. | .jumpaLong .. | .jumpv .. | .jumpc .. | .jumpnc .. | .jumpn .. | .jumpnn ..
  | .jumpz .. | .jumpnz .. => none

/-- The address a form stores to, if it stores (R97); the same functions the meanings use. -/
def storedAddress (i : Instr) (s : State) : Option Word :=
  match i with
  | .storeReg _ rs rt => some (s.eaReg rs rt)
  | .storeShort _ rs k => some (s.eaShort rs k)
  | .storeLong _ rs k => some (s.eaLong rs k)
  | .push .. | .callReg .. | .callShort .. | .callLong .. => some (s.sp - 1#16)
  | .addReg .. | .addShort .. | .addLong .. | .subReg .. | .lsl .. | .lsr .. | .andReg .. | .andLong .. | .notReg ..
  | .orReg .. | .orLong .. | .xorReg .. | .xorLong .. | .loadReg .. | .loadShort .. | .loadLong .. | .pop .. | .ret | .reti
  | .sfa | .sti .. | .jumpr .. | .jumpaReg .. | .jumpaLong .. | .jumpv .. | .jumpc .. | .jumpnc .. | .jumpn .. | .jumpnn ..
  | .jumpz .. | .jumpnz .. => none

/-- What a form adds to `sp`, modulo `2^16` (R18, R97). -/
def spChange (i : Instr) : Word :=
  match i with
  | .push .. | .callReg .. | .callShort .. | .callLong .. => 0xFFFF#16
  | .pop .. | .ret => 1#16
  | .reti => 2#16
  | .addReg .. | .addShort .. | .addLong .. | .subReg .. | .lsl .. | .lsr .. | .andReg .. | .andLong .. | .notReg ..
  | .orReg .. | .orLong .. | .xorReg .. | .xorLong .. | .loadReg .. | .loadShort .. | .loadLong .. | .storeReg ..
  | .storeShort .. | .storeLong .. | .sfa | .sti .. | .jumpr .. | .jumpaReg .. | .jumpaLong .. | .jumpv .. | .jumpc ..
  | .jumpnc .. | .jumpn .. | .jumpnn .. | .jumpz .. | .jumpnz .. => 0#16

/-- The forms that write N, Z, C and V: the 13 arithmetic and logic forms and RETI (R21). -/
def writesFlags (i : Instr) : Bool :=
  match i with
  | .addReg .. | .addShort .. | .addLong .. | .subReg .. | .lsl .. | .lsr .. | .andReg .. | .andLong .. | .notReg ..
  | .orReg .. | .orLong .. | .xorReg .. | .xorLong .. | .reti => true
  | .loadReg .. | .loadShort .. | .loadLong .. | .storeReg .. | .storeShort .. | .storeLong .. | .push .. | .pop ..
  | .callReg .. | .callShort .. | .callLong .. | .ret | .sfa | .sti .. | .jumpr .. | .jumpaReg .. | .jumpaLong .. | .jumpv ..
  | .jumpc .. | .jumpnc .. | .jumpn .. | .jumpnn .. | .jumpz .. | .jumpnz .. => false

/-- The forms that write IE: STI and RETI (R21). -/
def writesIe (i : Instr) : Bool :=
  match i with
  | .sti .. | .reti => true
  | .addReg .. | .addShort .. | .addLong .. | .subReg .. | .lsl .. | .lsr .. | .andReg .. | .andLong .. | .notReg ..
  | .orReg .. | .orLong .. | .xorReg .. | .xorLong .. | .loadReg .. | .loadShort .. | .loadLong .. | .storeReg ..
  | .storeShort .. | .storeLong .. | .push .. | .pop .. | .callReg .. | .callShort .. | .callLong .. | .ret | .sfa
  | .jumpr .. | .jumpaReg .. | .jumpaLong .. | .jumpv .. | .jumpc .. | .jumpnc .. | .jumpn .. | .jumpnn .. | .jumpz ..
  | .jumpnz .. => false

/-! ### The invariant, the end of a run -/

/-- The invariant of the model's data: memory and the address sets are in canonical form, every written word holds a
value (R34, R172), and only words of the launch memory hold one (R90). -/
structure State.Inv (s : State) : Prop where
  memory : Memory.wf s.mem = true
  text : AddrSet.wf s.text = true
  excluded : AddrSet.wf s.excluded = true
  written : AddrSet.wf s.written = true
  storage : ∀ a : Word, (s.word? a).isSome = true → s.hasStorage a = true
  writtenHold : ∀ a : Word, a.toNat ∈ s.written → (s.word? a).isSome = true

/-- No interrupt can be taken at this and the next boundaries, `n` in all, as long as IE stays: IE = 0, or irq is not
raised at any of them (R150, R171). -/
def State.QuietFor (s : State) (n : Nat) : Prop := s.ie = false ∨ ∀ k, k < n → s.irqAfter k = false

/-- A run has ended at `endPc` (R171): pc is there at an instruction boundary, with IE = 0 or irq never raised. -/
def State.EndedAt (s : State) (endPc : Word) : Prop := s.pc = endPc ∧ (s.ie = false ∨ ∀ k, s.irqAfter k = false)

/-- A number of steps one after another, up to the first that stops. -/
def run : Nat → State → Result
  | 0, s => .next s
  | n + 1, s =>
    match step s with
    | .next t => run n t
    | .fault f => .fault f
    | .refused why => .refused why

/-! ### Where a step's accesses stop it -/

/-- What stops an access at a state, if anything: no storage (R90, U12), then R43, then a word without a value (R172). -/
def State.stopAt (s : State) (access : Access) : Option Result :=
  match access with
  | .fetch a =>
    if s.hasStorage a = false then some (.fault (.accessOutsideLaunchMemory a))
    else if s.writtenGuards a then some (.refused .fetchOfWrittenWord)
    else if s.word? a = none then some (.fault (.readOfUnwrittenWord a))
    else none
  | .read a =>
    if s.hasStorage a = false then some (.fault (.accessOutsideLaunchMemory a))
    else if s.textGuards a then some (.refused .loadOfProgramText)
    else if s.word? a = none then some (.fault (.readOfUnwrittenWord a))
    else none
  | .write a _ => if s.hasStorage a = false then some (.fault (.accessOutsideLaunchMemory a)) else none

/-! ### The two-memory machine of R43 -/

/-- A fetch from a separate instruction memory `imem`. -/
def splitFetch (imem : Word → Option Word) (a : Word) (andThen : Word → Result) : Result :=
  match imem a with
  | some v => andThen v
  | none => .fault (.readOfUnwrittenWord a)

/-- Fetch and decode from a separate instruction memory. -/
def splitFetchInstr (imem : Word → Option Word) (s : State) (run : Instr → Result) : Result :=
  splitFetch imem s.pc fun w0 =>
    match decodeHead w0 with
    | .error why => .refused (refusalOf why)
    | .ok (.done i) => run i
    | .ok (.needs complete) => splitFetch imem (s.pc + 1#16) fun imm => run (complete imm)

/-- A step of a processor with separate memories: instructions come from `imem`, which nothing writes, and data from
the state's memory (the alternative R43 guards against). -/
def splitStep (imem : Word → Option Word) (s : State) : Result :=
  if s.interruptCondition then endStep (s.takeInterrupt Config.flagsLayout Config.intVector)
  else endStep (splitFetchInstr imem s fun i => exec i s)

/-- A guarded state `s` and a state `d` of the two-memory machine stand for the same run: they agree but for memory and
the premise; their data agree wherever R43 allows a data read; the instruction memory agrees wherever it allows a fetch. -/
structure SplitAgrees (imem : Word → Option Word) (s d : State) : Prop where
  guarded : s.memOrg = .notStated
  unguarded : d.memOrg = .unified
  regs : d.regs = s.regs
  pc : d.pc = s.pc
  sp : d.sp = s.sp
  flags : d.flags = s.flags
  ie : d.ie = s.ie
  memWords : d.memWords = s.memWords
  excluded : d.excluded = s.excluded
  text : d.text = s.text
  written : d.written = s.written
  irqInput : d.irqInput = s.irqInput
  boundary : d.boundary = s.boundary
  data : ∀ a : Word, a.toNat ∉ s.text ∨ a.toNat ∈ s.written → d.word? a = s.word? a
  fetched : ∀ a : Word, a.toNat ∉ s.written → imem a = s.word? a

end Sys2Proof.Machine
end

