-- ==== Sys2Proof/Certificates/Slice0/Obligations.lean ====
section
/-! DEFINITION. The statements for the provers, from the numbered rules of the spec; OBLIGATIONS.json lists them. -/

open Sys2Proof Sys2Proof.Machine

/-! ### Arithmetic and logic (R70 to R86) -/

/-- R71: ADD d, s, t writes the sum and the four flags by the printed formulas and changes nothing else but pc. -/
def Obligations.AddRegisterResult : Prop :=
  ∀ (d a b : RegIdx) (s : State), ∃ t, exec (.addReg d a b) s = .next t ∧
    HasForm (.addReg d a b) 0b00101#5 .type1v0 1 ∧
    let x := s.reg a; let y := s.reg b; let r := x + y
    ResultEffect s t 1 d r
      ((x.getLsbD 15 && y.getLsbD 15) || (!r.getLsbD 15 && (x.getLsbD 15 || y.getLsbD 15)))
      ((x.getLsbD 15 && y.getLsbD 15 && !r.getLsbD 15) || (!x.getLsbD 15 && !y.getLsbD 15 && r.getLsbD 15))

/-- R72: ADD d, s, simm5 adds the sign-extended 5-bit immediate; flags as R71 with the extended value as operand. -/
def Obligations.AddShortResult : Prop :=
  ∀ (d a : RegIdx) (k : BitVec 5) (s : State), ∃ t, exec (.addShort d a k) s = .next t ∧
    HasForm (.addShort d a k) 0b01101#5 .type2 1 ∧
    ∃ y : Word, y.toInt = k.toInt ∧
    let x := s.reg a; let r := x + y
    ResultEffect s t 1 d r
      ((x.getLsbD 15 && y.getLsbD 15) || (!r.getLsbD 15 && (x.getLsbD 15 || y.getLsbD 15)))
      ((x.getLsbD 15 && y.getLsbD 15 && !r.getLsbD 15) || (!x.getLsbD 15 && !y.getLsbD 15 && r.getLsbD 15))

/-- R73: ADD d, s, simm16 adds the second word; pc advances by 2. -/
def Obligations.AddLongResult : Prop :=
  ∀ (d a : RegIdx) (y : Word) (s : State), ∃ t, exec (.addLong d a y) s = .next t ∧
    HasForm (.addLong d a y) 0b00101#5 .type1v2 2 ∧
    let x := s.reg a; let r := x + y
    ResultEffect s t 2 d r
      ((x.getLsbD 15 && y.getLsbD 15) || (!r.getLsbD 15 && (x.getLsbD 15 || y.getLsbD 15)))
      ((x.getLsbD 15 && y.getLsbD 15 && !r.getLsbD 15) || (!x.getLsbD 15 && !y.getLsbD 15 && r.getLsbD 15))

/-- What R85 derives from ADD's printed formulas, for all three forms: C is the carry out of the 17-bit sum and V says
that the signed sum is out of range (the spec's own inference, marked [derived] there). -/
def Obligations.AddFlagsAreCarryAndSignedOverflow : Prop :=
  ∀ (i : Instr) (d a : RegIdx) (y : Word) (s : State),
    ((∃ b, i = .addReg d a b ∧ y = s.reg b) ∨ (∃ k : BitVec 5, i = .addShort d a k ∧ y = k.signExtend 16) ∨
      i = .addLong d a y) →
    ∃ t, exec i s = .next t ∧
      t.flags.c = decide (65536 ≤ (s.reg a).toNat + y.toNat) ∧
      t.flags.v = decide ((s.reg a).toInt + y.toInt < -32768 ∨ 32767 < (s.reg a).toInt + y.toInt)

/-- SUB d, s, t writes the difference, N and Z; C and V follow the formulas as printed, the documented value of SUB_CV
(the spec's decision D9, log 13). -/
def Obligations.SubResult : Prop :=
  ∀ (d a b : RegIdx) (s : State), ∃ t, exec (.subReg d a b) s = .next t ∧
    HasForm (.subReg d a b) 0b00001#5 .type1v0 1 ∧
    let x := s.reg a; let y := s.reg b; let r := x - y
    ResultEffect s t 1 d r
      ((x.getLsbD 15 && y.getLsbD 15) || (!r.getLsbD 15 && (x.getLsbD 15 || y.getLsbD 15)))
      ((x.getLsbD 15 && y.getLsbD 15 && !r.getLsbD 15) || (!x.getLsbD 15 && !y.getLsbD 15 && r.getLsbD 15))

/-- What is firm after SUB under every reading `cv` of SUB_CV (R74, R132, [derived] there): the difference, Z that says
the operands are equal, N the sign of the wrapped integer difference, C and V what `cv` gives; exec is SUB at the
documented reading. -/
def Obligations.SubUnderEveryReading : Prop :=
  ∀ (cv : Word → Word → Word → Bool × Bool) (d a b : RegIdx) (s : State),
    exec (.subReg d a b) s = .next (s.subInto subCV d (s.reg a) (s.reg b)) ∧
    let x := s.reg a; let y := s.reg b; let t := s.subInto cv d x y
    ResultEffect s t 1 d (x - y) (cv x y (x - y)).1 (cv x y (x - y)).2 ∧
    (t.flags.z = true ↔ x = y) ∧ (t.flags.n = true ↔ 32768 ≤ ((x.toNat : Int) - y.toNat) % 65536)

/-- LSL d, simm5 for the counts 0 to 15 multiplies by 2^n modulo 2^16 and clears C and V (R75; that the counts are
unsigned is the spec's decision D10, log 14). -/
def Obligations.ShiftLeftResult : Prop :=
  ∀ (d : RegIdx) (n : BitVec 5) (s : State), n.toNat < 16 → ∃ t, exec (.lsl d n) s = .next t ∧
    HasForm (.lsl d n) 0b01001#5 .type3 1 ∧
    ResultEffect s t 1 d (BitVec.ofNat 16 ((s.reg d).toNat * 2 ^ n.toNat)) false false

/-- LSR d, simm5 for the counts 0 to 15 divides the unsigned value by 2^n and clears C and V (R76; that the counts are
unsigned is the spec's decision D10, log 14). -/
def Obligations.ShiftRightResult : Prop :=
  ∀ (d : RegIdx) (n : BitVec 5) (s : State), n.toNat < 16 → ∃ t, exec (.lsr d n) s = .next t ∧
    HasForm (.lsr d n) 0b01000#5 .type3 1 ∧
    ResultEffect s t 1 d (BitVec.ofNat 16 ((s.reg d).toNat / 2 ^ n.toNat)) false false

/-- LSL and LSR with a count of 16 to 31 are refused by name, and they are exactly the ill-formed terms (the spec's
decision D10, log 14). -/
def Obligations.ShiftCountRefused : Prop :=
  ∀ (i : Instr) (s : State), exec i s = .refused .shiftCount16To31 ↔ i.wellFormed = false

/-- R77, R78: AND of two registers, or of a register and the second word; C and V cleared. -/
def Obligations.AndResults : Prop :=
  ∀ (d a b : RegIdx) (y : Word) (s : State),
    (∃ t, exec (.andReg d a b) s = .next t ∧ HasForm (.andReg d a b) 0b00111#5 .type1v0 1 ∧
      ResultEffect s t 1 d (s.reg a &&& s.reg b) false false) ∧
    (∃ t, exec (.andLong d a y) s = .next t ∧ HasForm (.andLong d a y) 0b00111#5 .type1v2 2 ∧
      ResultEffect s t 2 d (s.reg a &&& y) false false)

/-- R79: NOT complements every one of the 16 bits; C and V cleared; Z = 1 only for the operand 0xFFFF. -/
def Obligations.NotResult : Prop :=
  ∀ (d a : RegIdx) (s : State), ∃ t r, exec (.notReg d a) s = .next t ∧
    HasForm (.notReg d a) 0b00000#5 .type1v0 1 ∧ (∀ i, i < 16 → r.getLsbD i = !(s.reg a).getLsbD i) ∧
    ResultEffect s t 1 d r false false ∧ (t.flags.z = true ↔ s.reg a = 0xFFFF#16)

/-- R80, R81: OR of two registers, or of a register and the second word; C and V cleared. -/
def Obligations.OrResults : Prop :=
  ∀ (d a b : RegIdx) (y : Word) (s : State),
    (∃ t, exec (.orReg d a b) s = .next t ∧ HasForm (.orReg d a b) 0b00110#5 .type1v0 1 ∧
      ResultEffect s t 1 d (s.reg a ||| s.reg b) false false) ∧
    (∃ t, exec (.orLong d a y) s = .next t ∧ HasForm (.orLong d a y) 0b00110#5 .type1v2 2 ∧
      ResultEffect s t 2 d (s.reg a ||| y) false false)

/-- R82, R83: XOR of two registers, or of a register and the second word; C and V cleared. -/
def Obligations.XorResults : Prop :=
  ∀ (d a b : RegIdx) (y : Word) (s : State),
    (∃ t, exec (.xorReg d a b) s = .next t ∧ HasForm (.xorReg d a b) 0b00100#5 .type1v0 1 ∧
      ResultEffect s t 1 d (s.reg a ^^^ s.reg b) false false) ∧
    (∃ t, exec (.xorLong d a y) s = .next t ∧ HasForm (.xorLong d a y) 0b00100#5 .type1v2 2 ∧
      ResultEffect s t 2 d (s.reg a ^^^ y) false false)

/-- The idioms of R67 (the spec marks them [derived]): XOR d, d, d clears a register whatever it held; OR d, s, s and
ADD d, s, 0 copy one, with C = V = 0 and N, Z of the value; XOR then OR long loads a constant. -/
def Obligations.RegisterIdioms : Prop :=
  ∀ (d a : RegIdx) (k : Word) (s : State),
    (∃ t, exec (.xorReg d d d) s = .next t ∧ ResultEffect s t 1 d 0#16 false false) ∧
    (∃ t, exec (.orReg d a a) s = .next t ∧ ResultEffect s t 1 d (s.reg a) false false) ∧
    (∃ t, exec (.addShort d a 0#5) s = .next t ∧ ResultEffect s t 1 d (s.reg a) false false) ∧
    (∃ t u, exec (.xorReg d d d) s = .next t ∧ exec (.orLong d d k) t = .next u ∧ ResultEffect s u 3 d k false false)

/-! ### Load and store (R90 to R97) -/

/-- R91: LOAD d, t(s) reads the word at x[s] + x[t], both as they were, into x[d]; no flag changes. -/
def Obligations.LoadRegisterResult : Prop :=
  ∀ (d a b : RegIdx) (v : Word) (s : State), s.Reads (s.reg a + s.reg b) v →
    ∃ t, exec (.loadReg d a b) s = .next t ∧ HasForm (.loadReg d a b) 0b00010#5 .type1v0 1 ∧ LoadEffect s t 1 d v

/-- R92: LOAD d, simm5(s) reads the word at x[s] plus the sign-extended immediate, counted in words and wrapping. -/
def Obligations.LoadShortResult : Prop :=
  ∀ (d a : RegIdx) (k : BitVec 5) (ea v : Word) (s : State),
    (ea.toNat : Int) = ((s.reg a).toNat + k.toInt) % 65536 → s.Reads ea v →
    ∃ t, exec (.loadShort d a k) s = .next t ∧ HasForm (.loadShort d a k) 0b01110#5 .type2 1 ∧ LoadEffect s t 1 d v

/-- LOAD d, simm16(s) reads the word at x[s] + imm16; pc advances by 2 (R93, but for the order of its three reads). -/
def Obligations.LoadLongResult : Prop :=
  ∀ (d a : RegIdx) (k v : Word) (s : State), s.Reads (s.reg a + k) v →
    ∃ t, exec (.loadLong d a k) s = .next t ∧ HasForm (.loadLong d a k) 0b00010#5 .type1v1 2 ∧ LoadEffect s t 2 d v

/-- Where every LOAD and STORE form stops and where it completes: stuck outside the launch memory (R90, U12; log 20); a
LOAD refused at program text not since written where no unified memory is stated (R43, D7; log 4), a fault at a word that
holds no value (R172, D24; log 2). -/
def Obligations.LoadAndStoreStops : Prop :=
  ∀ (i : Instr) (d : RegIdx) (ea : Word) (s : State),
    (LoadsAt i s d ea → exec i s =
      if s.hasStorage ea = false then .fault (.accessOutsideLaunchMemory ea)
      else if s.memOrg = .notStated ∧ ea.toNat ∈ s.text ∧ ea.toNat ∉ s.written then .refused .loadOfProgramText
      else if s.word? ea = none then .fault (.readOfUnwrittenWord ea)
      else .next ((s.setReg d ((s.word? ea).getD 0#16)).advance i.length)) ∧
    (StoresAt i s d ea → exec i s =
      if s.hasStorage ea = false then .fault (.accessOutsideLaunchMemory ea)
      else .next ((s.storeWord ea (s.reg d)).advance i.length))

/-- R94: STORE d, t(s) writes x[d] to the word at x[s] + x[t], an address of the launch memory; no register and no flag
changes. -/
def Obligations.StoreRegisterResult : Prop :=
  ∀ (d a b : RegIdx) (s : State), s.hasStorage (s.reg a + s.reg b) = true →
    ∃ t, exec (.storeReg d a b) s = .next t ∧ HasForm (.storeReg d a b) 0b00011#5 .type1v0 1 ∧
    StoreEffect s t (s.reg a + s.reg b) (s.reg d) s.sp (s.pc + 1#16)

/-- R95: STORE d, simm5(s) writes x[d] to the word at x[s] plus the sign-extended immediate, an address of the launch
memory. -/
def Obligations.StoreShortResult : Prop :=
  ∀ (d a : RegIdx) (k : BitVec 5) (s : State), s.hasStorage (s.reg a + k.signExtend 16) = true →
    ∃ t, exec (.storeShort d a k) s = .next t ∧ HasForm (.storeShort d a k) 0b01111#5 .type2 1 ∧
    StoreEffect s t (s.reg a + k.signExtend 16) (s.reg d) s.sp (s.pc + 1#16)

/-- STORE d, simm16(s) writes x[d] to the word at x[s] + imm16, an address of the launch memory; pc advances by 2 (R96; its
corner case on a later fetch is R43's, see FetchStops). -/
def Obligations.StoreLongResult : Prop :=
  ∀ (d a : RegIdx) (k : Word) (s : State), s.hasStorage (s.reg a + k) = true →
    ∃ t, exec (.storeLong d a k) s = .next t ∧ HasForm (.storeLong d a k) 0b00011#5 .type1v1 2 ∧
    StoreEffect s t (s.reg a + k) (s.reg d) s.sp (s.pc + 2#16)

/-- Program order (R40, D16), for every LOAD form after every STORE form: a LOAD after a STORE to the same address gives
the stored word, whatever the premise on memory; a LOAD from another address gives what it gave before; of two STOREs to
one address the second stays. -/
def Obligations.LoadAfterStore : Prop :=
  ∀ (i j k : Instr) (d d' e : RegIdx) (ea ea' : Word) (s t : State), StoresAt i s d ea → exec i s = .next t →
    LoadsAt j t e ea' → StoresAt k t d' ea →
    (ea = ea' → ∃ u, exec j t = .next u ∧ u.reg e = s.reg d) ∧
    (ea ≠ ea' → ∀ v, s.Reads ea' v → ∃ u, exec j t = .next u ∧ u.reg e = v) ∧
    (∃ u, exec k t = .next u ∧ u.word? ea = some (s.reg d'))

/-! ### Stack (R100 to R102) -/

/-- PUSH s: sp falls by 1 modulo 2^16 and the word is stored at the new sp, an address of the launch memory (R100; the wrap
is D5, log 11). -/
def Obligations.PushResult : Prop :=
  ∀ (a : RegIdx) (s : State), s.hasStorage (s.sp - 1#16) = true →
    ∃ t, exec (.push a) s = .next t ∧ HasForm (.push a) 0b01011#5 .type7push 1 ∧
    StoreEffect s t (s.sp - 1#16) (s.reg a) (s.sp - 1#16) (s.pc + 1#16)

/-- POP d: the word at the old sp goes to x[d], then sp rises by 1 modulo 2^16; the memory keeps the word (R101; the
wrap is D5, log 11). -/
def Obligations.PopResult : Prop :=
  ∀ (d : RegIdx) (v : Word) (s : State), s.Reads s.sp v → ∃ t, exec (.pop d) s = .next t ∧
    HasForm (.pop d) 0b01010#5 .type7pop 1 ∧ t.reg d = v ∧ SameRegsExcept s t d ∧ t.sp = s.sp + 1#16 ∧
    t.pc = s.pc + 1#16 ∧ t.flags = s.flags ∧ t.ie = s.ie ∧ SameMemory s t ∧ t.written = s.written ∧ SameEnvironment s t

/-- PUSH s then POP d (R102, [derived] there), where the stack words are in the launch memory: sp as it was, x[d] the old
x[s], the pushed word still at sp - 1; and two pushes then two pops give the values back in reverse order. -/
def Obligations.PushThenPop : Prop :=
  ∀ (a b d e : RegIdx) (s : State), s.hasStorage (s.sp - 1#16) = true →
    (∃ t u, exec (.push a) s = .next t ∧ exec (.pop d) t = .next u ∧ u.sp = s.sp ∧ u.reg d = s.reg a ∧
      SameRegsExcept s u d ∧ u.flags = s.flags ∧ u.word? (s.sp - 1#16) = some (s.reg a)) ∧
    (e ≠ d → s.hasStorage (s.sp - 2#16) = true →
      ∃ t₁ t₂ t₃ u, exec (.push a) s = .next t₁ ∧ exec (.push b) t₁ = .next t₂ ∧ exec (.pop d) t₂ = .next t₃ ∧
      exec (.pop e) t₃ = .next u ∧ u.sp = s.sp ∧ u.reg d = s.reg b ∧ u.reg e = s.reg a)

/-! ### Call and return (R105 to R112) -/

/-- R106: CALL s pushes the address after the CALL, into the launch memory, and goes to x[s]. -/
def Obligations.CallRegisterResult : Prop :=
  ∀ (a : RegIdx) (s : State), s.hasStorage (s.sp - 1#16) = true →
    ∃ t, exec (.callReg a) s = .next t ∧ HasForm (.callReg a) 0b10001#5 .type6v0 1 ∧
    StoreEffect s t (s.sp - 1#16) (s.pc + 1#16) (s.sp - 1#16) (s.reg a)

/-- CALL simm11 pushes the address after the CALL and goes that address plus the signed immediate (R107; the base is the
spec's decision D8, log 12), the same target as JUMPR with the same immediate. -/
def Obligations.CallRelativeResult : Prop :=
  ∀ (k : BitVec 11) (s : State), s.hasStorage (s.sp - 1#16) = true →
    ∃ t, exec (.callShort k) s = .next t ∧ HasForm (.callShort k) 0b10011#5 .type4 1 ∧
    StoreEffect s t (s.sp - 1#16) (s.pc + 1#16) (s.sp - 1#16) (s.pc + 1#16 + k.signExtend 16) ∧
    ∃ u, exec (.jumpr k) s = .next u ∧ u.pc = t.pc

/-- CALL imm16 pushes the address past the immediate word (that it is plus 2 is [derived] in R108) and goes to imm16. -/
def Obligations.CallAbsoluteResult : Prop :=
  ∀ (k : Word) (s : State), s.hasStorage (s.sp - 1#16) = true →
    ∃ t, exec (.callLong k) s = .next t ∧ HasForm (.callLong k) 0b10001#5 .type6v1 2 ∧
    StoreEffect s t (s.sp - 1#16) (s.pc + 2#16) (s.sp - 1#16) k

/-- R109: RETURN goes to the word at sp, whatever put it there, and sp rises by 1. -/
def Obligations.ReturnResult : Prop :=
  ∀ (v : Word) (s : State), s.Reads s.sp v → ∃ t, exec .ret s = .next t ∧ HasForm .ret 0b10100#5 .type5 1 ∧
    encode .ret = [0xA000#16] ∧ TransferEffect s t (s.sp + 1#16) v

/-- A CALL, then a subroutine that leaves sp and the word at sp as it found them, then RETURN: resumes after the CALL
with sp as before it (R110, [derived] there). -/
def Obligations.CallThenReturn : Prop :=
  ∀ (i : Instr) (s t u : State), (∃ a, i = .callReg a) ∨ (∃ k, i = .callShort k) ∨ (∃ k, i = .callLong k) →
    exec i s = .next t → u.sp = t.sp → u.word? t.sp = t.word? t.sp →
    u.hasStorage u.sp = true → u.textGuards u.sp = false →
    ∃ w, exec .ret u = .next w ∧ w.sp = s.sp ∧ w.pc = s.pc + BitVec.ofNat 16 i.length

/-- RETI pops the flags word, then the return address; the flags, and IE where the layout carries it, come from the
flags word by FLAGS_UNPACK, which is open (R112, D12; log 6): this holds for every layout. -/
def Obligations.RetiResult : Prop :=
  ∀ (flagsWord target : Word) (s : State), s.Reads s.sp flagsWord → s.Reads (s.sp + 1#16) target →
    ∃ t, exec .reti s = .next t ∧ HasForm .reti 0b10101#5 .type5 1 ∧ t.pc = target ∧ t.sp = s.sp + 2#16 ∧
      t.flags = (Config.flagsLayout.unpack flagsWord).flags ∧
      (∀ b, (Config.flagsLayout.unpack flagsWord).ie = some b → t.ie = b) ∧
      ((Config.flagsLayout.unpack flagsWord).ie = none → t.ie = s.ie) ∧
      SameRegs s t ∧ SameMemory s t ∧ t.written = s.written ∧ SameEnvironment s t

/-- Where the stack instructions stop: PUSH and CALL where the new sp is outside the launch memory, POP, RETURN and RETI
where sp is (R141, U12; log 20); these three at a stack word that R43 guards or that holds no value (R172, D24; log 2);
RETI reads the word at sp first and the one above it second. -/
def Obligations.StackStops : Prop :=
  ∀ (i : Instr) (d : RegIdx) (s : State),
    ((∃ a, i = .push a ∨ i = .callReg a) ∨ (∃ k, i = .callShort k) ∨ (∃ k, i = .callLong k) →
      s.hasStorage (s.sp - 1#16) = false → exec i s = .fault (.accessOutsideLaunchMemory (s.sp - 1#16))) ∧
    (i = .pop d ∨ i = .ret ∨ i = .reti →
      (s.hasStorage s.sp = false → exec i s = .fault (.accessOutsideLaunchMemory s.sp)) ∧
      (s.hasStorage s.sp = true → s.textGuards s.sp = true → exec i s = .refused .loadOfProgramText) ∧
      (s.hasStorage s.sp = true → s.textGuards s.sp = false → s.word? s.sp = none →
        exec i s = .fault (.readOfUnwrittenWord s.sp))) ∧
    (∀ v, s.Reads s.sp v →
      (s.hasStorage (s.sp + 1#16) = false → exec .reti s = .fault (.accessOutsideLaunchMemory (s.sp + 1#16))) ∧
      (s.hasStorage (s.sp + 1#16) = true → s.textGuards (s.sp + 1#16) = true →
        exec .reti s = .refused .loadOfProgramText) ∧
      (s.hasStorage (s.sp + 1#16) = true → s.textGuards (s.sp + 1#16) = false → s.word? (s.sp + 1#16) = none →
        exec .reti s = .fault (.readOfUnwrittenWord (s.sp + 1#16))))

/-! ### System (R115, R116) -/

/-- R115: SFA changes pc and nothing else. -/
def Obligations.SfaResult : Prop :=
  ∀ s : State, ∃ t, exec .sfa s = .next t ∧ HasForm .sfa 0b10110#5 .type5 1 ∧ encode .sfa = [0xB000#16] ∧
    TransferEffect s t s.sp (s.pc + 1#16)

/-- STI a sets IE to the operand and changes nothing else but pc (R116). -/
def Obligations.StiResult : Prop :=
  ∀ (a : BitVec 1) (s : State), ∃ t, exec (.sti a) s = .next t ∧ HasForm (.sti a) 0b10010#5 .type8 1 ∧
    t.ie = decide (a = 1#1) ∧ t.pc = s.pc + 1#16 ∧ t.sp = s.sp ∧ SameRegs s t ∧ t.flags = s.flags ∧ SameMemory s t ∧
    t.written = s.written ∧ SameEnvironment s t

/-! ### Jumps (R120 to R131) -/

/-- R121: JUMPR goes to the address after it plus the signed immediate, modulo 2^16, and changes nothing else. -/
def Obligations.RelativeJumpResult : Prop :=
  ∀ (k : BitVec 11) (s : State), ∃ t, exec (.jumpr k) s = .next t ∧ HasForm (.jumpr k) 0b11100#5 .type4 1 ∧
    (t.pc.toNat : Int) = (s.pc.toNat + 1 + k.toInt) % 65536 ∧ TransferEffect s t s.sp t.pc

/-- R122, R123: JUMPA goes to the contents of a register or to the second word, and changes nothing else. -/
def Obligations.AbsoluteJumpResults : Prop :=
  ∀ (a : RegIdx) (k : Word) (s : State),
    (∃ t, exec (.jumpaReg a) s = .next t ∧ HasForm (.jumpaReg a) 0b10000#5 .type6v0 1 ∧ TransferEffect s t s.sp (s.reg a)) ∧
    (∃ t, exec (.jumpaLong k) s = .next t ∧ HasForm (.jumpaLong k) 0b10000#5 .type6v1 2 ∧ TransferEffect s t s.sp k)

/-- R124 to R130: each conditional jump tests its one flag, goes to the address after it plus the signed immediate if the
test holds and to the address after it if not, and changes nothing else. -/
def Obligations.ConditionalJumpResults : Prop :=
  ∀ (k : BitVec 11) (s : State) (i : Instr) (op : BitVec 5) (taken : Bool),
    (i, op, taken) ∈ [(.jumpv k, 0b11000#5, s.flags.v), (.jumpc k, 0b11001#5, s.flags.c), (.jumpnc k, 0b11101#5, !s.flags.c),
      (.jumpn k, 0b11011#5, s.flags.n), (.jumpnn k, 0b11111#5, !s.flags.n), (.jumpz k, 0b11010#5, s.flags.z),
      (Instr.jumpnz k, 0b11110#5, !s.flags.z)] →
    ∃ t, exec i s = .next t ∧ HasForm i op .type4 1 ∧
      TransferEffect s t s.sp (if taken then s.pc + 1#16 + k.signExtend 16 else s.pc + 1#16)

/-! ### What no instruction does (R15, R18, R21, R97) -/

/-- A general register that the table of R15 does not give a form as written keeps its value (a table the spec marks
[derived]). -/
def Obligations.RegistersWrittenOnlyAsTabulated : Prop :=
  ∀ (i : Instr) (s t : State) (k : RegIdx), exec i s = .next t → writtenReg i ≠ some k → t.reg k = s.reg k

/-- sp moves only by the stack instructions, by what R18 and R97 say, modulo 2^16 (D5, log 11). -/
def Obligations.StackPointerMovesOnlyByStackForms : Prop :=
  ∀ (i : Instr) (s t : State), exec i s = .next t → t.sp = s.sp + spChange i

/-- N, Z, C, V are written by the 13 arithmetic and logic forms and RETI only; IE by STI and RETI only (R21, whose
clause on the other forms is marked [derived]). With IE = 0 it stays 0 but for STI 1 and RETI (R150, premise b). -/
def Obligations.FlagsWrittenOnlyAsTabulated : Prop :=
  ∀ (i : Instr) (s t : State), exec i s = .next t →
    (writesFlags i = false → t.flags = s.flags) ∧ (writesIe i = false → t.ie = s.ie) ∧
    (s.ie = false → i ≠ .sti 1#1 → i ≠ .reti → t.ie = false)

/-- Every word of memory but the one a form stores to reads as before, and the launch premises, the environment's input
and the boundary number stay (R34, R97). -/
def Obligations.MemoryWrittenOnlyAtStoredAddress : Prop :=
  ∀ (i : Instr) (s t : State), exec i s = .next t →
    (∀ a, storedAddress i s ≠ some a → t.word? a = s.word? a) ∧
    (∀ k, k ∈ t.written ↔ (∃ ea, storedAddress i s = some ea ∧ k = ea.toNat) ∨ k ∈ s.written) ∧ SameEnvironment s t

/-- Memory is never taken away: a word that holds a value still holds one after any step (R34, R172). -/
def Obligations.WordsKeepHoldingValues : Prop :=
  ∀ (s t : State) (a : Word), step s = .next t → (s.word? a).isSome = true → (t.word? a).isSome = true

/-! ### Steps, interrupts and the end of a run (R17, R146 to R150, R171) -/

/-- When no interrupt is taken and the words at pc, fetched, decode to an instruction, the step is the instruction's
meaning at that state, then the next boundary (R17). -/
def Obligations.StepRunsDecodedInstruction : Prop :=
  ∀ (s : State) (i : Instr) (w0 imm : Word), s.interruptCondition = false → s.Fetches s.pc w0 →
    (decode [w0] = .ok (i, []) ∨ s.Fetches (s.pc + 1#16) imm ∧ decode [w0, imm] = .ok (i, [])) →
    (∀ t, exec i s = .next t →
      step s = .next { t with irqInput := t.irqInput.tail, boundary := t.boundary + 1 }) ∧
    (∀ f, exec i s = .fault f → step s = .fault f) ∧
    (∀ why, exec i s = .refused why → step s = .refused why)

/-- Where a fetch stops: an address outside the launch memory (R90, U12; log 20), a written word where no unified memory is
stated (R43, D7; log 4), a word without a value (R172, D24; log 2), each for the first word and for the immediate word of
a two-word form; and a first word that selects no form, refused by its name (R57, D2, D11; log 9). -/
def Obligations.FetchStops : Prop :=
  ∀ s : State, s.interruptCondition = false →
    (s.hasStorage s.pc = false → step s = .fault (.accessOutsideLaunchMemory s.pc)) ∧
    (s.hasStorage s.pc = true → s.writtenGuards s.pc = true → step s = .refused .fetchOfWrittenWord) ∧
    (s.hasStorage s.pc = true → s.writtenGuards s.pc = false → s.word? s.pc = none →
      step s = .fault (.readOfUnwrittenWord s.pc)) ∧
    (∀ w0, s.Fetches s.pc w0 →
      (decodeHead w0 = .error .opcode → step s = .refused .unlistedOpcode) ∧
      (decodeHead w0 = .error .mode → step s = .refused .unlistedMode) ∧
      (decodeHead w0 = .error .unusedBits → step s = .refused .nonzeroUnusedBits)) ∧
    (∀ w0 f, s.Fetches s.pc w0 → decodeHead w0 = .ok (.needs f) →
      (s.hasStorage (s.pc + 1#16) = false → step s = .fault (.accessOutsideLaunchMemory (s.pc + 1#16))) ∧
      (s.hasStorage (s.pc + 1#16) = true → s.writtenGuards (s.pc + 1#16) = true →
        step s = .refused .fetchOfWrittenWord) ∧
      (s.hasStorage (s.pc + 1#16) = true → s.writtenGuards (s.pc + 1#16) = false → s.word? (s.pc + 1#16) = none →
        step s = .fault (.readOfUnwrittenWord (s.pc + 1#16))))

/-- Interrupt entry (R147; beyond the order of the pushes it is the spec's decision D13, log 8): with IE = 1 and irq = 1
the step pushes pc, then the packed flags, clears IE and goes to INT_VECTOR; the vector and the layout are open. Where one
of the two stack words is outside the launch memory the step is stuck there, at the first such push (log 20). -/
def Obligations.InterruptEntryEffect : Prop :=
  ∀ s : State, s.ie = true → s.irq = true →
    (s.hasStorage (s.sp - 1#16) = false → step s = .fault (.accessOutsideLaunchMemory (s.sp - 1#16))) ∧
    (s.hasStorage (s.sp - 1#16) = true → s.hasStorage (s.sp - 2#16) = false →
      step s = .fault (.accessOutsideLaunchMemory (s.sp - 2#16))) ∧
    (s.hasStorage (s.sp - 1#16) = true → s.hasStorage (s.sp - 2#16) = true →
      ∃ t, step s = .next t ∧ t.pc = Config.intVector ∧ t.sp = s.sp - 2#16 ∧
      t.ie = false ∧ t.flags = s.flags ∧ SameRegs s t ∧ t.word? (s.sp - 1#16) = some s.pc ∧
      t.word? (s.sp - 2#16) = some (Config.flagsLayout.pack s.flags true) ∧
      (∀ a, a ≠ s.sp - 1#16 → a ≠ s.sp - 2#16 → t.word? a = s.word? a) ∧
      (∀ k, k ∈ t.written ↔ k = (s.sp - 1#16).toNat ∨ k = (s.sp - 2#16).toNat ∨ k ∈ s.written) ∧
      t.memOrg = s.memOrg ∧ t.text = s.text ∧ t.memWords = s.memWords ∧ t.excluded = s.excluded ∧
      t.irqInput = s.irqInput.tail ∧ t.boundary = s.boundary + 1)

/-- With IE = 0 no interrupt is taken, whatever the request line does (R146's last clause): the outcome of a step does
not depend on the environment's input at all. -/
def Obligations.DisabledInterruptsAreNotTaken : Prop :=
  ∀ (s : State) (input : List Bool) (n : Nat), s.ie = false →
    let s' := { s with irqInput := input, boundary := n }
    (∀ t, step s = .next t → step s' = .next { t with irqInput := input.tail, boundary := n + 1 }) ∧
    (∀ f, step s = .fault f → step s' = .fault f) ∧
    (∀ why, step s = .refused why → step s' = .refused why)

/-- Interrupt entry followed at once by RETI resumes exactly where the program was (R148, R149): pc, sp, N, Z, C, V and
the general registers as before, IE as the layout says, and memory changed only in the two stack words. It holds for every
lawful flags layout and every vector (log 6, log 7), and under both premises on memory, where the two stack words are in
the launch memory. -/
def Obligations.InterruptEntryThenReturnRestores : Prop :=
  ∀ s : State, s.ie = true → s.irq = true → s.hasStorage (s.sp - 1#16) = true → s.hasStorage (s.sp - 2#16) = true →
    ∃ t u, step s = .next t ∧ exec .reti t = .next u ∧ u.pc = s.pc ∧
    u.sp = s.sp ∧ u.flags = s.flags ∧ SameRegs s u ∧ (u.ie = true ∨ u.ie = false ∧
      (Config.flagsLayout.unpack (Config.flagsLayout.pack s.flags true)).ie = none) ∧
    (∀ a, a ≠ s.sp - 1#16 → a ≠ s.sp - 2#16 → u.word? a = s.word? a)

/-- A run that has come to an address holding JUMPR -1 (word 0xE7FF under D1) stays there and changes nothing but the
boundary for as many steps as no interrupt can be taken: IE = 0, or irq not raised at those boundaries; if the run has
ended there (R171: IE = 0 or irq never raised), for every number of steps (D15: a convention of claims). -/
def Obligations.EndedRunStays : Prop :=
  ∀ (s : State) (endPc : Word), s.Fetches endPc 0xE7FF#16 →
    (∀ n, s.pc = endPc → s.QuietFor n →
      run n s = .next { s with irqInput := s.irqInput.drop n, boundary := s.boundary + n }) ∧
    (s.EndedAt endPc → ∀ n, ∃ t, run n s = .next t ∧ t.EndedAt endPc ∧ t.sp = s.sp ∧ t.flags = s.flags ∧ t.ie = s.ie ∧
      SameRegs s t ∧ SameMemory s t)

/-- The accesses of a step in the order of R44 ([derived] there) account for it. Its writes: memory after the step is
memory with the listed writes done in order. Its reads: the step depends on memory only through the words it lists as
fetched or read. Their order: the step stops at the first listed access that cannot be made and as that access stops, and
where all can be made it goes on, or is refused for its word or its shift count. -/
def Obligations.AccessesAccountForStep : Prop :=
  ∀ s : State,
    (∀ t, step s = .next t → t.mem = s.stepAccesses.foldl Access.applyTo s.mem) ∧
    (∀ t m, step s = .next t →
      (∀ a, Access.fetch a ∈ s.stepAccesses ∨ Access.read a ∈ s.stepAccesses → Memory.readWord m a = s.word? a) →
      step { s with mem := m } = .next { t with mem := s.stepAccesses.foldl Access.applyTo m }) ∧
    (∀ r, s.stepAccesses.findSome? s.stopAt = some r → step s = r) ∧
    (s.stepAccesses.findSome? s.stopAt = none → (∃ t, step s = .next t) ∨
      step s = .refused .shiftCount16To31 ∨ ∃ why, step s = .refused (refusalOf why))

/-- STI acts on the very next boundary (R116, R146; D13, log 8): after a step that ran STI 1 an interrupt is taken next
exactly when irq = 1 there; after STI 0 none is taken. -/
def Obligations.StiActsAtNextBoundary : Prop :=
  ∀ (s t : State) (w0 : Word) (a : BitVec 1), s.interruptCondition = false → s.Fetches s.pc w0 →
    decode [w0] = .ok (.sti a, []) → step s = .next t →
    t.interruptCondition = (decide (a = 1#1) && t.irq) ∧
    (t.interruptCondition = true → s.hasStorage (s.sp - 1#16) = true → s.hasStorage (s.sp - 2#16) = true →
      ∃ u, step t = .next u ∧ u.word? (s.sp - 1#16) = some (s.pc + 1#16))

/-! ### Encoding (R46 to R63) -/

/-- Decoding what encode gives answers the instruction, with every operand at every value and any words after it. -/
def Obligations.DecodeEncode : Prop :=
  ∀ (i : Instr) (rest : List Word), decode (encode i ++ rest) = .ok (i, rest)

/-- Whatever decodes is an encoding: no two word sequences decode to one instruction, and no bit is ignored (D2). -/
def Obligations.EncodeDecode : Prop :=
  ∀ (ws rest : List Word) (i : Instr), decode ws = .ok (i, rest) → encode i ++ rest = ws

/-- The decoder agrees with the match, mask and L columns of R56 on all 65536 first words: a word that decodes selects
exactly one row, of that length, and a refused word selects none. -/
def Obligations.DecoderAgreesWithTable : Prop :=
  ∀ w0 : Word, ((opcodeRows.filter (fun r => r.selectedBy w0)).map Row.length) =
    match decodeHead w0 with
    | .error _ => []
    | .ok (.done _) => [1]
    | .ok (.needs _) => [2]

/-- Why a first word is refused (R57, R63; D2, D11): the two unassigned opcodes; a mode no form of a Type1 or Type6 opcode
has; otherwise an unused bit. -/
def Obligations.RefusalReasons : Prop :=
  ∀ w0 : Word,
    (decodeHead w0 = .error .opcode ↔ opcodeOf w0 = 0b01100#5 ∨ opcodeOf w0 = 0b10111#5) ∧
    (decodeHead w0 = .error .mode ↔
      ((opcodeOf w0).toNat ≤ 1 ∧ modeOf w0 ≠ 0#2) ∨
      (((opcodeOf w0).toNat = 2 ∨ (opcodeOf w0).toNat = 3) ∧ modeOf w0 ≠ 0#2 ∧ modeOf w0 ≠ 1#2) ∨
      (4 ≤ (opcodeOf w0).toNat ∧ (opcodeOf w0).toNat ≤ 7 ∧ modeOf w0 ≠ 0#2 ∧ modeOf w0 ≠ 2#2) ∨
      (((opcodeOf w0).toNat = 16 ∨ (opcodeOf w0).toNat = 17) ∧ modeOf w0 ≠ 0#2 ∧ modeOf w0 ≠ 1#2))

/-- A few words written out from R56 decode to what they stand for, and a few refused ones are refused by name. -/
def Obligations.SampleWordsDecode : Prop :=
  decode [0x294C#16] = .ok (.addReg 1 2 3, []) ∧ decode [0x1141#16, 0x8000#16] = .ok (.loadLong 1 2 0x8000#16, []) ∧
  decode [0x7FFF#16] = .ok (.storeShort 7 7 0x1F#5, []) ∧ decode [0x9EFF#16] = .ok (.callShort 0x6FF#11, []) ∧
  decode [0xA800#16] = .ok (.reti, []) ∧ decode [0x5860#16] = .ok (.push 3, []) ∧
  decode [0xF7FD#16] = .ok (.jumpnz 0x7FD#11, []) ∧ decode [0x67FF#16] = .error (.unlisted .opcode) ∧
  decode [0x8002#16] = .error (.unlisted .mode) ∧ decode [0x8021#16] = .error (.unlisted .unusedBits)

/-! ### Invariants and the organisation of memory (R43, R34) -/

/-- The launch state meets the invariant. -/
def Obligations.ResetMeetsInvariant : Prop := State.reset.Inv

/-- What reset leaves. That no memory word holds a value is R172's; a whole launch memory is what R5 documents (D6, D23);
the spec gives no reset value of a register or flag, and the zeros, the premise and the empty script are the model's choice
(DESIGN CHOICE, log 3, log 4, log 5). -/
def Obligations.ResetValues : Prop :=
  (∀ a, State.reset.word? a = none) ∧ (∀ k, State.reset.reg k = 0#16) ∧ State.reset.pc = 0#16 ∧ State.reset.sp = 0#16 ∧
  State.reset.flags = ⟨false, false, false, false⟩ ∧ State.reset.ie = false ∧ State.reset.memWords = 65536 ∧
  State.reset.excluded = [] ∧ State.reset.memOrg = .unified ∧
  State.reset.text = [] ∧ State.reset.written = [] ∧ State.reset.irqInput = []

/-- Every step keeps the invariant: memory and the address sets stay in canonical form, every written word holds a value
and only words of the launch memory hold one. -/
def Obligations.StepKeepsInvariant : Prop :=
  ∀ s t : State, s.Inv → step s = .next t → t.Inv

/-- What the guarded model does, a processor with separate instruction and data memories does too (R43, D7): a step that
goes on is matched by a step of the two-memory machine, and the two stay in agreement. -/
def Obligations.GuardedStepAgreesWithSplitMemories : Prop :=
  ∀ (imem : Word → Option Word) (s d t : State), SplitAgrees imem s d → step s = .next t →
    ∃ e, splitStep imem d = .next e ∧ SplitAgrees imem t e

/-- What the guarded model does, a processor with one memory does too (R43, D7): dropping the two refusals changes no step
that goes on. -/
def Obligations.GuardedStepAgreesWithUnifiedMemory : Prop :=
  ∀ s t : State, step s = .next t → step { s with memOrg := .unified } = .next { t with memOrg := .unified }
end

