-- ==== Sys2Proof/Laws/State.lean ====
section
/-! SUPPORT. The small lemmas of the state: one per field per update, and what a register and a word read after one. -/

namespace Sys2Proof.Machine

/-! ### setReg -/

@[simp] theorem State.setReg_regs (s : State) (r : RegIdx) (v : Word) : (s.setReg r v).regs = s.regs.set r.toNat v r.isLt := rfl
@[simp] theorem State.setReg_pc (s : State) (r : RegIdx) (v : Word) : (s.setReg r v).pc = s.pc := rfl
@[simp] theorem State.setReg_sp (s : State) (r : RegIdx) (v : Word) : (s.setReg r v).sp = s.sp := rfl
@[simp] theorem State.setReg_flags (s : State) (r : RegIdx) (v : Word) : (s.setReg r v).flags = s.flags := rfl
@[simp] theorem State.setReg_ie (s : State) (r : RegIdx) (v : Word) : (s.setReg r v).ie = s.ie := rfl
@[simp] theorem State.setReg_mem (s : State) (r : RegIdx) (v : Word) : (s.setReg r v).mem = s.mem := rfl
@[simp] theorem State.setReg_memWords (s : State) (r : RegIdx) (v : Word) : (s.setReg r v).memWords = s.memWords := rfl
@[simp] theorem State.setReg_excluded (s : State) (r : RegIdx) (v : Word) : (s.setReg r v).excluded = s.excluded := rfl
@[simp] theorem State.setReg_hasStorage (s : State) (r : RegIdx) (v : Word) (k : Word) : (s.setReg r v).hasStorage k = s.hasStorage k := rfl
@[simp] theorem State.setReg_memOrg (s : State) (r : RegIdx) (v : Word) : (s.setReg r v).memOrg = s.memOrg := rfl
@[simp] theorem State.setReg_text (s : State) (r : RegIdx) (v : Word) : (s.setReg r v).text = s.text := rfl
@[simp] theorem State.setReg_written (s : State) (r : RegIdx) (v : Word) : (s.setReg r v).written = s.written := rfl
@[simp] theorem State.setReg_irqInput (s : State) (r : RegIdx) (v : Word) : (s.setReg r v).irqInput = s.irqInput := rfl
@[simp] theorem State.setReg_boundary (s : State) (r : RegIdx) (v : Word) : (s.setReg r v).boundary = s.boundary := rfl

@[simp] theorem State.setReg_word? (s : State) (r : RegIdx) (v : Word) (k : Word) : (s.setReg r v).word? k = s.word? k := rfl

/-! ### setPc -/

@[simp] theorem State.setPc_regs (s : State) (a : Word) : (s.setPc a).regs = s.regs := rfl
@[simp] theorem State.setPc_pc (s : State) (a : Word) : (s.setPc a).pc = a := rfl
@[simp] theorem State.setPc_sp (s : State) (a : Word) : (s.setPc a).sp = s.sp := rfl
@[simp] theorem State.setPc_flags (s : State) (a : Word) : (s.setPc a).flags = s.flags := rfl
@[simp] theorem State.setPc_ie (s : State) (a : Word) : (s.setPc a).ie = s.ie := rfl
@[simp] theorem State.setPc_mem (s : State) (a : Word) : (s.setPc a).mem = s.mem := rfl
@[simp] theorem State.setPc_memWords (s : State) (a : Word) : (s.setPc a).memWords = s.memWords := rfl
@[simp] theorem State.setPc_excluded (s : State) (a : Word) : (s.setPc a).excluded = s.excluded := rfl
@[simp] theorem State.setPc_hasStorage (s : State) (a : Word) (k : Word) : (s.setPc a).hasStorage k = s.hasStorage k := rfl
@[simp] theorem State.setPc_memOrg (s : State) (a : Word) : (s.setPc a).memOrg = s.memOrg := rfl
@[simp] theorem State.setPc_text (s : State) (a : Word) : (s.setPc a).text = s.text := rfl
@[simp] theorem State.setPc_written (s : State) (a : Word) : (s.setPc a).written = s.written := rfl
@[simp] theorem State.setPc_irqInput (s : State) (a : Word) : (s.setPc a).irqInput = s.irqInput := rfl
@[simp] theorem State.setPc_boundary (s : State) (a : Word) : (s.setPc a).boundary = s.boundary := rfl

@[simp] theorem State.setPc_reg (s : State) (a : Word) (k : RegIdx) : (s.setPc a).reg k = s.reg k := rfl
@[simp] theorem State.setPc_word? (s : State) (a : Word) (k : Word) : (s.setPc a).word? k = s.word? k := rfl

/-! ### setSp -/

@[simp] theorem State.setSp_regs (s : State) (a : Word) : (s.setSp a).regs = s.regs := rfl
@[simp] theorem State.setSp_pc (s : State) (a : Word) : (s.setSp a).pc = s.pc := rfl
@[simp] theorem State.setSp_sp (s : State) (a : Word) : (s.setSp a).sp = a := rfl
@[simp] theorem State.setSp_flags (s : State) (a : Word) : (s.setSp a).flags = s.flags := rfl
@[simp] theorem State.setSp_ie (s : State) (a : Word) : (s.setSp a).ie = s.ie := rfl
@[simp] theorem State.setSp_mem (s : State) (a : Word) : (s.setSp a).mem = s.mem := rfl
@[simp] theorem State.setSp_memWords (s : State) (a : Word) : (s.setSp a).memWords = s.memWords := rfl
@[simp] theorem State.setSp_excluded (s : State) (a : Word) : (s.setSp a).excluded = s.excluded := rfl
@[simp] theorem State.setSp_hasStorage (s : State) (a : Word) (k : Word) : (s.setSp a).hasStorage k = s.hasStorage k := rfl
@[simp] theorem State.setSp_memOrg (s : State) (a : Word) : (s.setSp a).memOrg = s.memOrg := rfl
@[simp] theorem State.setSp_text (s : State) (a : Word) : (s.setSp a).text = s.text := rfl
@[simp] theorem State.setSp_written (s : State) (a : Word) : (s.setSp a).written = s.written := rfl
@[simp] theorem State.setSp_irqInput (s : State) (a : Word) : (s.setSp a).irqInput = s.irqInput := rfl
@[simp] theorem State.setSp_boundary (s : State) (a : Word) : (s.setSp a).boundary = s.boundary := rfl

@[simp] theorem State.setSp_reg (s : State) (a : Word) (k : RegIdx) : (s.setSp a).reg k = s.reg k := rfl
@[simp] theorem State.setSp_word? (s : State) (a : Word) (k : Word) : (s.setSp a).word? k = s.word? k := rfl

/-! ### setFlags -/

@[simp] theorem State.setFlags_regs (s : State) (f : Flags) : (s.setFlags f).regs = s.regs := rfl
@[simp] theorem State.setFlags_pc (s : State) (f : Flags) : (s.setFlags f).pc = s.pc := rfl
@[simp] theorem State.setFlags_sp (s : State) (f : Flags) : (s.setFlags f).sp = s.sp := rfl
@[simp] theorem State.setFlags_flags (s : State) (f : Flags) : (s.setFlags f).flags = f := rfl
@[simp] theorem State.setFlags_ie (s : State) (f : Flags) : (s.setFlags f).ie = s.ie := rfl
@[simp] theorem State.setFlags_mem (s : State) (f : Flags) : (s.setFlags f).mem = s.mem := rfl
@[simp] theorem State.setFlags_memWords (s : State) (f : Flags) : (s.setFlags f).memWords = s.memWords := rfl
@[simp] theorem State.setFlags_excluded (s : State) (f : Flags) : (s.setFlags f).excluded = s.excluded := rfl
@[simp] theorem State.setFlags_hasStorage (s : State) (f : Flags) (k : Word) : (s.setFlags f).hasStorage k = s.hasStorage k := rfl
@[simp] theorem State.setFlags_memOrg (s : State) (f : Flags) : (s.setFlags f).memOrg = s.memOrg := rfl
@[simp] theorem State.setFlags_text (s : State) (f : Flags) : (s.setFlags f).text = s.text := rfl
@[simp] theorem State.setFlags_written (s : State) (f : Flags) : (s.setFlags f).written = s.written := rfl
@[simp] theorem State.setFlags_irqInput (s : State) (f : Flags) : (s.setFlags f).irqInput = s.irqInput := rfl
@[simp] theorem State.setFlags_boundary (s : State) (f : Flags) : (s.setFlags f).boundary = s.boundary := rfl

@[simp] theorem State.setFlags_reg (s : State) (f : Flags) (k : RegIdx) : (s.setFlags f).reg k = s.reg k := rfl
@[simp] theorem State.setFlags_word? (s : State) (f : Flags) (k : Word) : (s.setFlags f).word? k = s.word? k := rfl

/-! ### setIe -/

@[simp] theorem State.setIe_regs (s : State) (b : Bool) : (s.setIe b).regs = s.regs := rfl
@[simp] theorem State.setIe_pc (s : State) (b : Bool) : (s.setIe b).pc = s.pc := rfl
@[simp] theorem State.setIe_sp (s : State) (b : Bool) : (s.setIe b).sp = s.sp := rfl
@[simp] theorem State.setIe_flags (s : State) (b : Bool) : (s.setIe b).flags = s.flags := rfl
@[simp] theorem State.setIe_ie (s : State) (b : Bool) : (s.setIe b).ie = b := rfl
@[simp] theorem State.setIe_mem (s : State) (b : Bool) : (s.setIe b).mem = s.mem := rfl
@[simp] theorem State.setIe_memWords (s : State) (b : Bool) : (s.setIe b).memWords = s.memWords := rfl
@[simp] theorem State.setIe_excluded (s : State) (b : Bool) : (s.setIe b).excluded = s.excluded := rfl
@[simp] theorem State.setIe_hasStorage (s : State) (b : Bool) (k : Word) : (s.setIe b).hasStorage k = s.hasStorage k := rfl
@[simp] theorem State.setIe_memOrg (s : State) (b : Bool) : (s.setIe b).memOrg = s.memOrg := rfl
@[simp] theorem State.setIe_text (s : State) (b : Bool) : (s.setIe b).text = s.text := rfl
@[simp] theorem State.setIe_written (s : State) (b : Bool) : (s.setIe b).written = s.written := rfl
@[simp] theorem State.setIe_irqInput (s : State) (b : Bool) : (s.setIe b).irqInput = s.irqInput := rfl
@[simp] theorem State.setIe_boundary (s : State) (b : Bool) : (s.setIe b).boundary = s.boundary := rfl

@[simp] theorem State.setIe_reg (s : State) (b : Bool) (k : RegIdx) : (s.setIe b).reg k = s.reg k := rfl
@[simp] theorem State.setIe_word? (s : State) (b : Bool) (k : Word) : (s.setIe b).word? k = s.word? k := rfl

/-! ### storeWord -/

@[simp] theorem State.storeWord_regs (s : State) (a v : Word) : (s.storeWord a v).regs = s.regs := rfl
@[simp] theorem State.storeWord_pc (s : State) (a v : Word) : (s.storeWord a v).pc = s.pc := rfl
@[simp] theorem State.storeWord_sp (s : State) (a v : Word) : (s.storeWord a v).sp = s.sp := rfl
@[simp] theorem State.storeWord_flags (s : State) (a v : Word) : (s.storeWord a v).flags = s.flags := rfl
@[simp] theorem State.storeWord_ie (s : State) (a v : Word) : (s.storeWord a v).ie = s.ie := rfl
@[simp] theorem State.storeWord_mem (s : State) (a v : Word) : (s.storeWord a v).mem = Memory.writeWord s.mem a v := rfl
@[simp] theorem State.storeWord_memWords (s : State) (a v : Word) : (s.storeWord a v).memWords = s.memWords := rfl
@[simp] theorem State.storeWord_excluded (s : State) (a v : Word) : (s.storeWord a v).excluded = s.excluded := rfl
@[simp] theorem State.storeWord_hasStorage (s : State) (a v : Word) (k : Word) : (s.storeWord a v).hasStorage k = s.hasStorage k := rfl
@[simp] theorem State.storeWord_memOrg (s : State) (a v : Word) : (s.storeWord a v).memOrg = s.memOrg := rfl
@[simp] theorem State.storeWord_text (s : State) (a v : Word) : (s.storeWord a v).text = s.text := rfl
@[simp] theorem State.storeWord_written (s : State) (a v : Word) : (s.storeWord a v).written = AddrSet.add s.written a.toNat := rfl
@[simp] theorem State.storeWord_irqInput (s : State) (a v : Word) : (s.storeWord a v).irqInput = s.irqInput := rfl
@[simp] theorem State.storeWord_boundary (s : State) (a v : Word) : (s.storeWord a v).boundary = s.boundary := rfl

@[simp] theorem State.storeWord_reg (s : State) (a v : Word) (k : RegIdx) : (s.storeWord a v).reg k = s.reg k := rfl

/-! ### pushWord -/

@[simp] theorem State.pushWord_regs (s : State) (v : Word) : (s.pushWord v).regs = s.regs := rfl
@[simp] theorem State.pushWord_pc (s : State) (v : Word) : (s.pushWord v).pc = s.pc := rfl
@[simp] theorem State.pushWord_sp (s : State) (v : Word) : (s.pushWord v).sp = s.sp - 1#16 := rfl
@[simp] theorem State.pushWord_flags (s : State) (v : Word) : (s.pushWord v).flags = s.flags := rfl
@[simp] theorem State.pushWord_ie (s : State) (v : Word) : (s.pushWord v).ie = s.ie := rfl
@[simp] theorem State.pushWord_mem (s : State) (v : Word) : (s.pushWord v).mem = Memory.writeWord s.mem (s.sp - 1#16) v := rfl
@[simp] theorem State.pushWord_memWords (s : State) (v : Word) : (s.pushWord v).memWords = s.memWords := rfl
@[simp] theorem State.pushWord_excluded (s : State) (v : Word) : (s.pushWord v).excluded = s.excluded := rfl
@[simp] theorem State.pushWord_hasStorage (s : State) (v : Word) (k : Word) : (s.pushWord v).hasStorage k = s.hasStorage k := rfl
@[simp] theorem State.pushWord_memOrg (s : State) (v : Word) : (s.pushWord v).memOrg = s.memOrg := rfl
@[simp] theorem State.pushWord_text (s : State) (v : Word) : (s.pushWord v).text = s.text := rfl
@[simp] theorem State.pushWord_written (s : State) (v : Word) : (s.pushWord v).written = AddrSet.add s.written (s.sp - 1#16).toNat := rfl
@[simp] theorem State.pushWord_irqInput (s : State) (v : Word) : (s.pushWord v).irqInput = s.irqInput := rfl
@[simp] theorem State.pushWord_boundary (s : State) (v : Word) : (s.pushWord v).boundary = s.boundary := rfl

@[simp] theorem State.pushWord_reg (s : State) (v : Word) (k : RegIdx) : (s.pushWord v).reg k = s.reg k := rfl

/-! ### advance -/

@[simp] theorem State.advance_regs (s : State) (len : Nat) : (s.advance len).regs = s.regs := rfl
@[simp] theorem State.advance_pc (s : State) (len : Nat) : (s.advance len).pc = s.npc len := rfl
@[simp] theorem State.advance_sp (s : State) (len : Nat) : (s.advance len).sp = s.sp := rfl
@[simp] theorem State.advance_flags (s : State) (len : Nat) : (s.advance len).flags = s.flags := rfl
@[simp] theorem State.advance_ie (s : State) (len : Nat) : (s.advance len).ie = s.ie := rfl
@[simp] theorem State.advance_mem (s : State) (len : Nat) : (s.advance len).mem = s.mem := rfl
@[simp] theorem State.advance_memWords (s : State) (len : Nat) : (s.advance len).memWords = s.memWords := rfl
@[simp] theorem State.advance_excluded (s : State) (len : Nat) : (s.advance len).excluded = s.excluded := rfl
@[simp] theorem State.advance_hasStorage (s : State) (len : Nat) (k : Word) : (s.advance len).hasStorage k = s.hasStorage k := rfl
@[simp] theorem State.advance_memOrg (s : State) (len : Nat) : (s.advance len).memOrg = s.memOrg := rfl
@[simp] theorem State.advance_text (s : State) (len : Nat) : (s.advance len).text = s.text := rfl
@[simp] theorem State.advance_written (s : State) (len : Nat) : (s.advance len).written = s.written := rfl
@[simp] theorem State.advance_irqInput (s : State) (len : Nat) : (s.advance len).irqInput = s.irqInput := rfl
@[simp] theorem State.advance_boundary (s : State) (len : Nat) : (s.advance len).boundary = s.boundary := rfl

@[simp] theorem State.advance_reg (s : State) (len : Nat) (k : RegIdx) : (s.advance len).reg k = s.reg k := rfl
@[simp] theorem State.advance_word? (s : State) (len : Nat) (k : Word) : (s.advance len).word? k = s.word? k := rfl

/-! ### nextBoundary -/

@[simp] theorem State.nextBoundary_regs (s : State) : (s.nextBoundary).regs = s.regs := rfl
@[simp] theorem State.nextBoundary_pc (s : State) : (s.nextBoundary).pc = s.pc := rfl
@[simp] theorem State.nextBoundary_sp (s : State) : (s.nextBoundary).sp = s.sp := rfl
@[simp] theorem State.nextBoundary_flags (s : State) : (s.nextBoundary).flags = s.flags := rfl
@[simp] theorem State.nextBoundary_ie (s : State) : (s.nextBoundary).ie = s.ie := rfl
@[simp] theorem State.nextBoundary_mem (s : State) : (s.nextBoundary).mem = s.mem := rfl
@[simp] theorem State.nextBoundary_memWords (s : State) : (s.nextBoundary).memWords = s.memWords := rfl
@[simp] theorem State.nextBoundary_excluded (s : State) : (s.nextBoundary).excluded = s.excluded := rfl
@[simp] theorem State.nextBoundary_hasStorage (s : State) (k : Word) : (s.nextBoundary).hasStorage k = s.hasStorage k := rfl
@[simp] theorem State.nextBoundary_memOrg (s : State) : (s.nextBoundary).memOrg = s.memOrg := rfl
@[simp] theorem State.nextBoundary_text (s : State) : (s.nextBoundary).text = s.text := rfl
@[simp] theorem State.nextBoundary_written (s : State) : (s.nextBoundary).written = s.written := rfl
@[simp] theorem State.nextBoundary_irqInput (s : State) : (s.nextBoundary).irqInput = s.irqInput.tail := rfl
@[simp] theorem State.nextBoundary_boundary (s : State) : (s.nextBoundary).boundary = s.boundary + 1 := rfl

@[simp] theorem State.nextBoundary_reg (s : State) (k : RegIdx) : (s.nextBoundary).reg k = s.reg k := rfl
@[simp] theorem State.nextBoundary_word? (s : State) (k : Word) : (s.nextBoundary).word? k = s.word? k := rfl

/-- The levels of irq after the next boundary are those from the one after this on (R144). -/
@[simp] theorem State.nextBoundary_irqAfter (s : State) (n : Nat) : s.nextBoundary.irqAfter n = s.irqAfter (n + 1) := by
  simp [State.irqAfter, Nat.add_comm 1 n, Nat.add_assoc]

/-! ### Registers -/

/-- The register written reads as the value written. -/
@[simp] theorem State.reg_setReg_same (s : State) (r : RegIdx) (v : Word) : (s.setReg r v).reg r = v := by
  simp [State.reg, State.setReg]

/-- Every other register reads as before. -/
theorem State.reg_setReg_other (s : State) (r k : RegIdx) (v : Word) (h : k ≠ r) : (s.setReg r v).reg k = s.reg k := by
  have hne : r.toNat ≠ k.toNat := fun e => h (BitVec.eq_of_toNat_eq e).symm
  simp [State.reg, State.setReg, hne]

/-- A register after a write to one. -/
theorem State.reg_setReg (s : State) (r k : RegIdx) (v : Word) :
    (s.setReg r v).reg k = if k = r then v else s.reg k := by
  split
  · next h => subst h; exact s.reg_setReg_same k v
  · next h => exact s.reg_setReg_other r k v h

end Sys2Proof.Machine
end

