-- ==== Sys2Proof/Laws/Memory.lean ====
section
/-! SUPPORT. The laws of memory and of the address sets: a read after a write, and that every operation keeps the
canonical form. -/

namespace Sys2Proof.Machine

/-! ### Rising lists -/

/-- A rising list with a head: the head is below every later element, and the rest rises. -/
theorem rising_cons (a : Nat) (rest : List Nat) :
    rising (a :: rest) = true ↔ (∀ b ∈ rest, a < b) ∧ rising rest = true := by
  induction rest generalizing a with
  | nil => simp [rising]
  | cons b rest ih =>
    simp only [rising, Bool.and_eq_true, decide_eq_true_eq, List.mem_cons, forall_eq_or_imp]
    constructor
    · rintro ⟨hab, hr⟩
      exact ⟨⟨hab, fun c hc => Nat.lt_trans hab (((ih b).1 hr).1 c hc)⟩, hr⟩
    · rintro ⟨⟨hab, _⟩, hr⟩
      exact ⟨hab, hr⟩

/-- Leaving elements out of a rising list leaves it rising. -/
theorem rising_filter (p : Nat → Bool) (l : List Nat) (h : rising l = true) : rising (l.filter p) = true := by
  induction l with
  | nil => simpa using h
  | cons a rest ih =>
    obtain ⟨hlt, hr⟩ := (rising_cons a rest).1 h
    rw [List.filter_cons]
    split
    · exact (rising_cons _ _).2 ⟨fun b hb => hlt b (List.mem_filter.1 hb).1, ih hr⟩
    · exact ih hr

/-! ### Address sets -/

/-- Adding an address adds it and no other. -/
@[simp] theorem AddrSet.mem_add (set : AddrSet) (a k : Nat) : k ∈ AddrSet.add set a ↔ k = a ∨ k ∈ set := by
  induction set with
  | nil => simp [AddrSet.add]
  | cons b rest ih =>
    simp only [AddrSet.add]
    split
    · simp
    · split
      · next h => subst h; simp
      · simp only [List.mem_cons, ih]; tauto

/-- Adding an address to a rising set leaves it rising. -/
theorem AddrSet.rising_add (set : AddrSet) (a : Nat) (h : rising set = true) : rising (AddrSet.add set a) = true := by
  induction set with
  | nil => rfl
  | cons b rest ih =>
    obtain ⟨hlt, hr⟩ := (rising_cons b rest).1 h
    simp only [AddrSet.add]
    split
    · next hab =>
      refine (rising_cons _ _).2 ⟨fun c hc => ?_, h⟩
      rcases List.mem_cons.1 hc with rfl | hc
      · exact hab
      · exact Nat.lt_trans hab (hlt c hc)
    · split
      · exact h
      · refine (rising_cons _ _).2 ⟨fun c hc => ?_, ih hr⟩
        rcases (AddrSet.mem_add rest a c).1 hc with rfl | hc
        · omega
        · exact hlt c hc

/-- Adding a word address keeps the canonical form of a set. -/
theorem AddrSet.wf_add (set : AddrSet) (a : Word) (h : AddrSet.wf set = true) : AddrSet.wf (AddrSet.add set a.toNat) = true := by
  simp only [AddrSet.wf, Bool.and_eq_true, List.all_eq_true, decide_eq_true_eq] at *
  refine ⟨AddrSet.rising_add set _ h.1, fun k hk => ?_⟩
  rcases (AddrSet.mem_add set _ k).1 hk with rfl | hk
  · exact a.isLt
  · exact h.2 k hk

/-- Taking an address out of a set keeps the canonical form. -/
theorem AddrSet.wf_remove (set : AddrSet) (a : Nat) (h : AddrSet.wf set = true) : AddrSet.wf (AddrSet.remove set a) = true := by
  simp only [AddrSet.wf, AddrSet.remove, Bool.and_eq_true, List.all_eq_true, decide_eq_true_eq] at *
  exact ⟨rising_filter _ _ h.1, fun k hk => h.2 k (List.mem_filter.1 hk).1⟩

/-! ### Bytes -/

/-- A cell after a write to one. -/
theorem Memory.readByte_writeByte (m : Memory) (a k : Nat) (b : BitVec 8) :
    Memory.readByte (Memory.writeByte m a b) k = if k = a then some b else Memory.readByte m k := by
  induction m with
  | nil => simp [Memory.writeByte, Memory.readByte, eq_comm]
  | cons cell rest ih =>
    obtain ⟨j, x⟩ := cell
    simp only [Memory.writeByte]
    split
    · simp [Memory.readByte, eq_comm]
    · split
      · next h => subst h; by_cases hk : a = k <;> simp [Memory.readByte, hk, eq_comm]
      · next hne =>
        simp only [Memory.readByte, ih]
        by_cases hk : j = k
        · subst hk; simp [Ne.symm hne]
        · simp [hk]

/-- The cells listed after a write: the written one and those listed before. -/
theorem Memory.mem_keys_writeByte (m : Memory) (a k : Nat) (b : BitVec 8) :
    k ∈ (Memory.writeByte m a b).map Prod.fst ↔ k = a ∨ k ∈ m.map Prod.fst := by
  induction m with
  | nil => simp [Memory.writeByte]
  | cons cell rest ih =>
    obtain ⟨j, x⟩ := cell
    simp only [Memory.writeByte]
    split
    · simp
    · split
      · next h => subst h; simp
      · rw [List.map_cons, List.mem_cons, ih, List.map_cons, List.mem_cons]; tauto

/-- Writing a byte leaves the cells rising. -/
theorem Memory.rising_writeByte (m : Memory) (a : Nat) (b : BitVec 8) (h : rising (m.map Prod.fst) = true) :
    rising ((Memory.writeByte m a b).map Prod.fst) = true := by
  induction m with
  | nil => rfl
  | cons cell rest ih =>
    obtain ⟨j, x⟩ := cell
    obtain ⟨hlt, hr⟩ := (rising_cons j _).1 h
    simp only [Memory.writeByte]
    split
    · next haj =>
      refine (rising_cons _ _).2 ⟨fun c hc => ?_, h⟩
      rcases List.mem_cons.1 hc with rfl | hc
      · exact haj
      · exact Nat.lt_trans haj (hlt c hc)
    · split
      · next he => subst he; exact h
      · refine (rising_cons _ _).2 ⟨fun c hc => ?_, ih hr⟩
        rcases (Memory.mem_keys_writeByte rest a c b).1 hc with rfl | hc
        · omega
        · exact hlt c hc

/-- A cell holds a byte exactly when it is listed. -/
theorem Memory.readByte_isSome (m : Memory) (k : Nat) : (Memory.readByte m k).isSome = true ↔ k ∈ m.map Prod.fst := by
  induction m with
  | nil => simp [Memory.readByte]
  | cons cell rest ih =>
    obtain ⟨j, x⟩ := cell
    simp only [Memory.readByte, List.map_cons, List.mem_cons]
    split
    · next h => subst h; simp
    · next h => rw [ih]; simp [Ne.symm h]

/-! ### Words -/

/-- A word read after a write of one (R33, R34): the value written at that address, as before elsewhere. -/
theorem Memory.readWord_writeWord (m : Memory) (a v k : Word) :
    Memory.readWord (Memory.writeWord m a v) k = if k = a then some v else Memory.readWord m k := by
  have halves : (v.extractLsb' 8 8 ++ v.extractLsb' 0 8 : BitVec 16) = v := by
    ext i hi
    simp only [BitVec.getElem_append, BitVec.getElem_extractLsb']
    split
    · simp [BitVec.getLsbD_eq_getElem hi]
    · next h => rw [show 8 + (i - 8) = i by omega, BitVec.getLsbD_eq_getElem hi]
  simp only [Memory.readWord, Memory.writeWord, Memory.readByte_writeByte]
  by_cases h : k = a
  · subst h
    rw [if_neg (by omega), if_pos rfl, if_pos rfl, if_pos rfl]
    exact congrArg some halves
  · have hne : k.toNat ≠ a.toNat := fun e => h (BitVec.eq_of_toNat_eq e)
    rw [if_neg (by omega), if_neg (by omega), if_neg (by omega), if_neg (by omega), if_neg h]

/-- The canonical form of memory, as facts about its cells. -/
theorem Memory.wf_iff (m : Memory) : Memory.wf m = true ↔
    rising (m.map Prod.fst) = true ∧ ∀ k ∈ m.map Prod.fst, k < 131072 ∧ partnerCell k ∈ m.map Prod.fst := by
  simp only [Memory.wf, Bool.and_eq_true, List.all_eq_true, decide_eq_true_eq, Memory.readByte_isSome, List.forall_mem_map]

/-- `MemWrite` keeps the canonical form of memory. -/
theorem Memory.wf_writeWord (m : Memory) (a v : Word) (h : Memory.wf m = true) : Memory.wf (Memory.writeWord m a v) = true := by
  obtain ⟨hr, hk⟩ := (Memory.wf_iff m).1 h
  refine (Memory.wf_iff _).2 ⟨Memory.rising_writeByte _ _ _ (Memory.rising_writeByte _ _ _ hr), fun k hkm => ?_⟩
  have keys : ∀ j, j ∈ (Memory.writeWord m a v).map Prod.fst ↔
      j = 2 * a.toNat + 1 ∨ j = 2 * a.toNat ∨ j ∈ m.map Prod.fst := fun j => by
    rw [Memory.writeWord, Memory.mem_keys_writeByte, Memory.mem_keys_writeByte]
  have ha := a.isLt
  rcases (keys k).1 hkm with rfl | rfl | hk'
  · exact ⟨by omega, (keys _).2 (.inr (.inl (by simp [partnerCell])))⟩
  · exact ⟨by omega, (keys _).2 (.inl (by simp [partnerCell]))⟩
  · exact ⟨(hk k hk').1, (keys _).2 (.inr (.inr (hk k hk').2))⟩

/-! ### Words of the state -/

/-- A word after the processor's write. -/
theorem State.word?_storeWord (s : State) (a v k : Word) :
    (s.storeWord a v).word? k = if k = a then some v else s.word? k := Memory.readWord_writeWord s.mem a v k

/-- A word after a push. -/
theorem State.word?_pushWord (s : State) (v k : Word) :
    (s.pushWord v).word? k = if k = s.sp - 1#16 then some v else s.word? k :=
  Memory.readWord_writeWord s.mem (s.sp - 1#16) v k

end Sys2Proof.Machine
end

