-- ==== Sys2Proof/Laws/Ops.lean ====
section
/-! SUPPORT. One lemma per shared operation: what it answers and everything it changes. -/

namespace Sys2Proof.Machine

/-! ### The guards of R43 -/

/-- When R43 refuses a data read. -/
theorem State.textGuards_iff (s : State) (a : Word) :
    s.textGuards a = true ↔ s.memOrg = .notStated ∧ a.toNat ∈ s.text ∧ a.toNat ∉ s.written := by
  simp [State.textGuards, and_assoc]

/-- When R43 refuses a fetch. -/
theorem State.writtenGuards_iff (s : State) (a : Word) :
    s.writtenGuards a = true ↔ s.memOrg = .notStated ∧ a.toNat ∈ s.written := by
  simp [State.writtenGuards]

/-- A word just stored may be read, whatever the premise on memory. -/
@[simp] theorem State.textGuards_storeWord_same (s : State) (a v : Word) : (s.storeWord a v).textGuards a = false := by
  rw [Bool.eq_false_iff, ne_eq, State.textGuards_iff]
  simp

/-- A store guards no word that was not guarded. -/
theorem State.textGuards_storeWord {s : State} {k : Word} (h : s.textGuards k = false) (a v : Word) :
    (s.storeWord a v).textGuards k = false := by
  rw [Bool.eq_false_iff, ne_eq, State.textGuards_iff] at h ⊢
  simp only [State.storeWord_memOrg, State.storeWord_text, State.storeWord_written, AddrSet.mem_add]
  tauto

/-- A word just pushed may be read, whatever the premise on memory. -/
@[simp] theorem State.textGuards_pushWord_same (s : State) (v : Word) :
    (s.pushWord v).textGuards (s.sp - 1#16) = false := (s.setSp (s.sp - 1#16)).textGuards_storeWord_same (s.sp - 1#16) v

/-- A push guards no word that was not guarded. -/
theorem State.textGuards_pushWord {s : State} {k : Word} (h : s.textGuards k = false) (v : Word) :
    (s.pushWord v).textGuards k = false := State.textGuards_storeWord (s := s.setSp (s.sp - 1#16)) h (s.sp - 1#16) v

/-! ### Storage -/

/-- Where the launch memory has storage. -/
theorem State.hasStorage_iff (s : State) (a : Word) : s.hasStorage a = true ↔ a.toNat < s.memWords ∧ a.toNat ∉ s.excluded := by
  simp [State.hasStorage]

/-- Storage depends on the launch memory only. -/
theorem State.hasStorage_congr {s t : State} (hw : t.memWords = s.memWords) (he : t.excluded = s.excluded) (a : Word) :
    t.hasStorage a = s.hasStorage a := by
  rw [State.hasStorage, State.hasStorage, hw, he]

/-- An access with storage goes on. -/
theorem State.needStorage_of {s : State} {a : Word} (h : s.hasStorage a = true) (r : Result) : s.needStorage a r = r :=
  if_pos h

/-- An access outside the launch memory is stuck. -/
theorem State.needStorage_outside {s : State} {a : Word} (h : s.hasStorage a = false) (r : Result) :
    s.needStorage a r = .fault (.accessOutsideLaunchMemory a) := by
  simp [State.needStorage, h]

/-- An access ends in a next state only where there is storage. -/
theorem State.needStorage_next {s t : State} {a : Word} {r : Result} :
    s.needStorage a r = .next t ↔ s.hasStorage a = true ∧ r = .next t := by
  unfold State.needStorage
  split <;> simp [*]

/-! ### Reads and fetches -/

/-- A data read of a word that R43 does not guard and that holds a value hands that value on. -/
theorem State.readData_of_reads {s : State} {a v : Word} (h : s.Reads a v) (k : Word → Result) : s.readData a k = k v := by
  simp [State.readData, State.needStorage, h.1, h.2.1, h.2.2]

/-- A data read ends in a next state only by handing on the word it read. -/
theorem State.readData_next {s t : State} {a : Word} {k : Word → Result} :
    s.readData a k = .next t ↔ ∃ v, s.Reads a v ∧ k v = .next t := by
  constructor
  · intro h
    obtain ⟨hs, h⟩ := State.needStorage_next.1 h
    split at h
    · cases h
    · next hg =>
      split at h
      · next v hv => exact ⟨v, ⟨hs, by simpa using hg, hv⟩, h⟩
      · cases h
  · rintro ⟨v, hv, h⟩
    rw [State.readData_of_reads hv, h]

/-- A data read of a word without a value faults, unless R43 refuses it first (R172). -/
theorem State.readData_unwritten {s : State} {a : Word} (hs : s.hasStorage a = true) (hg : s.textGuards a = false) (hw : s.word? a = none)
    (k : Word → Result) : s.readData a k = .fault (.readOfUnwrittenWord a) := by
  simp [State.readData, State.needStorage, hs, hg, hw]

/-- A data read of guarded program text is refused (R43). -/
theorem State.readData_guarded {s : State} {a : Word} (hs : s.hasStorage a = true) (hg : s.textGuards a = true) (k : Word → Result) :
    s.readData a k = .refused .loadOfProgramText := by
  simp [State.readData, State.needStorage, hs, hg]

/-- A fetch of a word that R43 does not guard and that holds a value hands that value on. -/
theorem State.fetchWord_of_fetches {s : State} {a v : Word} (h : s.Fetches a v) (k : Word → Result) :
    s.fetchWord a k = k v := by
  simp [State.fetchWord, State.needStorage, h.1, h.2.1, h.2.2]

/-- A fetch ends in a next state only by handing on the word it read. -/
theorem State.fetchWord_next {s t : State} {a : Word} {k : Word → Result} :
    s.fetchWord a k = .next t ↔ ∃ v, s.Fetches a v ∧ k v = .next t := by
  constructor
  · intro h
    obtain ⟨hs, h⟩ := State.needStorage_next.1 h
    split at h
    · cases h
    · next hg =>
      split at h
      · next v hv => exact ⟨v, ⟨hs, by simpa using hg, hv⟩, h⟩
      · cases h
  · rintro ⟨v, hv, h⟩
    rw [State.fetchWord_of_fetches hv, h]

/-- A fetch of a word without a value faults, unless R43 refuses it first (R172). -/
theorem State.fetchWord_unwritten {s : State} {a : Word} (hs : s.hasStorage a = true) (hg : s.writtenGuards a = false) (hw : s.word? a = none)
    (k : Word → Result) : s.fetchWord a k = .fault (.readOfUnwrittenWord a) := by
  simp [State.fetchWord, State.needStorage, hs, hg, hw]

/-- A fetch of a guarded written word is refused (R43). -/
theorem State.fetchWord_guarded {s : State} {a : Word} (hs : s.hasStorage a = true) (hg : s.writtenGuards a = true) (k : Word → Result) :
    s.fetchWord a k = .refused .fetchOfWrittenWord := by
  simp [State.fetchWord, State.needStorage, hs, hg]

/-- A fetch stops as `stopAt` says, else hands on the word. -/
theorem State.fetchWord_stopAt (s : State) (a : Word) (k : Word → Result) :
    s.fetchWord a k = match s.stopAt (.fetch a) with | some r => r | none => k ((s.word? a).getD 0#16) := by
  unfold State.fetchWord State.needStorage State.stopAt
  cases hs : s.hasStorage a <;> cases hg : s.writtenGuards a <;> cases hw : s.word? a <;> simp [hs, hg, hw]

/-- A data read stops as `stopAt` says, else hands on the word. -/
theorem State.readData_stopAt (s : State) (a : Word) (k : Word → Result) :
    s.readData a k = match s.stopAt (.read a) with | some r => r | none => k ((s.word? a).getD 0#16) := by
  unfold State.readData State.needStorage State.stopAt
  cases hs : s.hasStorage a <;> cases hg : s.textGuards a <;> cases hw : s.word? a <;> simp [hs, hg, hw]

/-- A write stops as `stopAt` says, else goes on. -/
theorem State.needStorage_stopAt (s : State) (a v : Word) (r : Result) :
    s.needStorage a r = match s.stopAt (.write a v) with | some r => r | none => r := by
  unfold State.needStorage State.stopAt
  cases hs : s.hasStorage a <;> simp [hs]

/-- A pop of a readable stack word hands on the word and the state with `sp` incremented. -/
theorem State.popWord_of_reads {s : State} {v : Word} (h : s.Reads s.sp v) (k : Word → State → Result) :
    s.popWord k = k v (s.setSp (s.sp + 1#16)) := State.readData_of_reads h _

/-- A pop ends in a next state only through the word at `sp`. -/
theorem State.popWord_next {s t : State} {k : Word → State → Result} :
    s.popWord k = .next t ↔ ∃ v, s.Reads s.sp v ∧ k v (s.setSp (s.sp + 1#16)) = .next t := State.readData_next

/-- A change of `sp` alone changes no data read. -/
@[simp] theorem State.reads_setSp (s : State) (x a v : Word) : (s.setSp x).Reads a v ↔ s.Reads a v := Iff.rfl

/-! ### Writes and interrupt entry -/

/-- A write with storage hands on the state with the word stored. -/
theorem State.writeData_of {s : State} {a : Word} (h : s.hasStorage a = true) (v : Word) (k : State → Result) :
    s.writeData a v k = k (s.storeWord a v) := State.needStorage_of h _

/-- A write ends in a next state only where there is storage. -/
theorem State.writeData_next {s t : State} {a v : Word} {k : State → Result} :
    s.writeData a v k = .next t ↔ s.hasStorage a = true ∧ k (s.storeWord a v) = .next t := State.needStorage_next

/-- A push with storage at the new `sp` hands on the state with the word pushed. -/
theorem State.pushData_of {s : State} (h : s.hasStorage (s.sp - 1#16) = true) (v : Word) (k : State → Result) :
    s.pushData v k = k (s.pushWord v) := State.needStorage_of h _

/-- A push ends in a next state only where there is storage. -/
theorem State.pushData_next {s t : State} {v : Word} {k : State → Result} :
    s.pushData v k = .next t ↔ s.hasStorage (s.sp - 1#16) = true ∧ k (s.pushWord v) = .next t := State.needStorage_next

/-- Interrupt entry ends in a next state exactly where both stack words have storage, in the state it leaves. -/
theorem State.takeInterrupt_next {s t : State} {layout : FlagsLayout} {vector : Word} :
    s.takeInterrupt layout vector = .next t ↔
      s.hasStorage (s.sp - 1#16) = true ∧ s.hasStorage (s.sp - 1#16 - 1#16) = true ∧ s.interruptEntry layout vector = t := by
  simp only [State.takeInterrupt, State.pushData_next, State.pushWord_hasStorage, State.pushWord_sp, Host.Outcome.next.injEq]

/-! ### Results -/

/-- `writeResult` with the flags of its result is the whole effect of an arithmetic or logic form. -/
theorem State.writeResult_effect (s : State) (len : Nat) (rd : RegIdx) (r : Word) (c v : Bool) :
    ResultEffect s (s.writeResult len rd r (flagsOf r c v)) len rd r c v where
  result := by simp [State.writeResult]
  otherRegs k hk := by simp [State.writeResult, State.reg_setReg_other _ _ _ _ hk]
  negative := rfl
  zero := by rw [Bool.eq_iff_iff]; simp [State.writeResult, flagsOf]
  carry := rfl
  overflow := rfl
  pc := rfl
  sp := rfl
  ie := rfl
  memory _ := rfl
  written := rfl
  environment := ⟨rfl, rfl, rfl, rfl, rfl, rfl⟩

/-- What a LOAD form leaves. -/
theorem State.loaded_effect (s : State) (len : Nat) (rd : RegIdx) (v : Word) :
    LoadEffect s ((s.setReg rd v).advance len) len rd v where
  loaded := by simp
  otherRegs k hk := by simp [State.reg_setReg_other _ _ _ _ hk]
  flags := rfl
  pc := rfl
  sp := rfl
  ie := rfl
  memory _ := rfl
  written := rfl
  environment := ⟨rfl, rfl, rfl, rfl, rfl, rfl⟩

/-- What a STORE form leaves. -/
theorem State.stored_effect (s : State) (len : Nat) (ea v : Word) :
    StoreEffect s ((s.storeWord ea v).advance len) ea v s.sp (s.npc len) where
  stored := by simp [State.word?_storeWord]
  otherWords a ha := by simp [State.word?_storeWord, ha]
  regs _ := rfl
  flags := rfl
  pc := rfl
  sp := rfl
  ie := rfl
  written k := AddrSet.mem_add s.written _ k
  environment := ⟨rfl, rfl, rfl, rfl, rfl, rfl⟩

/-- What a push followed by a transfer leaves. -/
theorem State.pushed_effect (s : State) (v target : Word) :
    StoreEffect s ((s.pushWord v).setPc target) (s.sp - 1#16) v (s.sp - 1#16) target where
  stored := by simp [State.word?_pushWord]
  otherWords a ha := by simp [State.word?_pushWord, ha]
  regs _ := rfl
  flags := rfl
  pc := rfl
  sp := rfl
  ie := rfl
  written k := AddrSet.mem_add s.written _ k
  environment := ⟨rfl, rfl, rfl, rfl, rfl, rfl⟩

/-- Interrupt entry pushes pc and the packed flags, clears IE and goes to the vector; nothing else changes (R147). -/
theorem State.interruptEntry_fields (s : State) (layout : FlagsLayout) (vector : Word) :
    (s.interruptEntry layout vector).pc = vector ∧ (s.interruptEntry layout vector).ie = false ∧
    (s.interruptEntry layout vector).flags = s.flags ∧ (s.interruptEntry layout vector).regs = s.regs ∧
    (s.interruptEntry layout vector).sp = s.sp - 2#16 ∧
    ∀ k, (s.interruptEntry layout vector).word? k =
      if k = s.sp - 2#16 then some (layout.pack s.flags s.ie) else if k = s.sp - 1#16 then some s.pc else s.word? k := by
  have two : s.sp - 1#16 - 1#16 = s.sp - 2#16 := by rw [BitVec.sub_sub]; rfl
  refine ⟨rfl, rfl, rfl, rfl, two, fun k => ?_⟩
  simp only [State.interruptEntry, State.setPc_word?, State.setIe_word?, State.word?_pushWord, State.pushWord_sp, two]

/-- The return from interrupt ends in a next state exactly by reading both stack words (R112). -/
theorem State.interruptReturn_next {s t : State} {layout : FlagsLayout} :
    s.interruptReturn layout = .next t ↔ ∃ flagsWord target, s.Reads s.sp flagsWord ∧ s.Reads (s.sp + 1#16) target ∧
      (((s.setSp (s.sp + 1#16 + 1#16)).restoreFlags (layout.unpack flagsWord)).setPc target) = t := by
  simp only [State.interruptReturn, State.popWord_next, State.reads_setSp, State.setSp_sp, Host.Outcome.next.injEq]
  constructor
  · rintro ⟨f, hf, v, hv, rfl⟩; exact ⟨f, v, hf, hv, rfl⟩
  · rintro ⟨f, v, hf, hv, rfl⟩; exact ⟨f, hf, v, hv, rfl⟩

/-! ### The canonical form -/

/-- A store by the processor to the launch memory keeps the invariant. -/
theorem State.inv_storeWord {s : State} (h : s.Inv) {a : Word} (ha : s.hasStorage a = true) (v : Word) :
    (s.storeWord a v).Inv where
  memory := Memory.wf_writeWord _ _ _ h.memory
  text := h.text
  excluded := h.excluded
  storage k hk := by
    rw [State.word?_storeWord] at hk
    split at hk
    · next e => subst e; exact ha
    · exact h.storage k hk
  written := AddrSet.wf_add _ _ h.written
  writtenHold k hk := by
    rw [State.word?_storeWord]
    split
    · rfl
    · next hne =>
      rcases (AddrSet.mem_add s.written _ _).1 hk with e | e
      · exact absurd (BitVec.eq_of_toNat_eq e) hne
      · exact h.writtenHold k e

/-- A push into the launch memory keeps the invariant. -/
theorem State.inv_pushWord {s : State} (h : s.Inv) (hs : s.hasStorage (s.sp - 1#16) = true) (v : Word) : (s.pushWord v).Inv :=
  State.inv_storeWord (s := s.setSp (s.sp - 1#16)) ⟨h.memory, h.text, h.excluded, h.written, h.storage, h.writtenHold⟩ hs v

/-- The invariant speaks of memory, the launch memory and the address sets only. -/
theorem State.inv_congr {s t : State} (h : s.Inv) (hm : t.mem = s.mem) (hn : t.memWords = s.memWords)
    (he : t.excluded = s.excluded) (ht : t.text = s.text) (hw : t.written = s.written) : t.Inv where
  memory := hm ▸ h.memory
  text := ht ▸ h.text
  excluded := he ▸ h.excluded
  storage a ha := by
    rw [State.hasStorage_congr hn he]
    have same : t.word? a = s.word? a := congrArg (Memory.readWord · a) hm
    exact h.storage a (same ▸ ha)
  written := hw ▸ h.written
  writtenHold a ha := by
    have : t.word? a = s.word? a := congrArg (Memory.readWord · a) hm
    exact this ▸ h.writtenHold a (hw ▸ ha)

/-- Placing a program keeps the canonical form of memory and of the address sets. -/
theorem State.wf_placeProgram {s : State} (h : s.Inv) (w0 w1 : Word) :
    Memory.wf (s.placeProgram w0 w1).mem = true ∧ AddrSet.wf (s.placeProgram w0 w1).excluded = true ∧
    AddrSet.wf (s.placeProgram w0 w1).text = true ∧ AddrSet.wf (s.placeProgram w0 w1).written = true :=
  ⟨Memory.wf_writeWord _ _ _ (Memory.wf_writeWord _ _ _ h.memory), AddrSet.wf_remove _ _ (AddrSet.wf_remove _ _ h.excluded),
    AddrSet.wf_add _ _ (AddrSet.wf_add _ _ h.text), AddrSet.wf_remove _ _ (AddrSet.wf_remove _ _ h.written)⟩

/-- The memory right after reset is in canonical form. -/
theorem State.reset_mem_wf : Memory.wf State.reset.mem = true := by decide

end Sys2Proof.Machine
end

