-- ==== Sys2Proof/Laws/PerInstr.lean ====
section
/-! SUPPORT. Statements about every instruction form as syntax, one lemma per constructor. -/

namespace Sys2Proof.Laws

/-- The encoding of a form has as many words as its length says, and its first word carries the form's opcode in bits 15
to 11 (R46, R48). -/
def EncodeShape.Statement (i : Instr) : Prop := (encode i).length = i.length ∧ (encode i).head?.map opcodeOf = some i.opcode

/-- The opcode of a word built from an opcode and 11 bits under it is that opcode. -/
theorem EncodeShape.opcodeOf_append (op : BitVec 5) (x : BitVec 11) : opcodeOf (op ++ x : BitVec 16) = op := by
  ext i hi
  have h := BitVec.getLsbD_append (x := op) (y := x) (i := 11 + i)
  simp only [show ¬ 11 + i < 11 by omega, if_false, Nat.add_sub_cancel_left] at h
  simpa [opcodeOf, field, BitVec.getLsbD_eq_getElem hi] using h

theorem EncodeShape.addReg (rd rs rt : RegIdx) : EncodeShape.Statement (.addReg rd rs rt) :=
  ⟨rfl, congrArg some (EncodeShape.opcodeOf_append _ _)⟩

theorem EncodeShape.addShort (rd rs : RegIdx) (simm5 : BitVec 5) : EncodeShape.Statement (.addShort rd rs simm5) :=
  ⟨rfl, congrArg some (EncodeShape.opcodeOf_append _ _)⟩

theorem EncodeShape.addLong (rd rs : RegIdx) (simm16 : Word) : EncodeShape.Statement (.addLong rd rs simm16) :=
  ⟨rfl, congrArg some (EncodeShape.opcodeOf_append _ _)⟩

theorem EncodeShape.subReg (rd rs rt : RegIdx) : EncodeShape.Statement (.subReg rd rs rt) :=
  ⟨rfl, congrArg some (EncodeShape.opcodeOf_append _ _)⟩

theorem EncodeShape.lsl (rd : RegIdx) (count : BitVec 5) : EncodeShape.Statement (.lsl rd count) :=
  ⟨rfl, congrArg some (EncodeShape.opcodeOf_append _ _)⟩

theorem EncodeShape.lsr (rd : RegIdx) (count : BitVec 5) : EncodeShape.Statement (.lsr rd count) :=
  ⟨rfl, congrArg some (EncodeShape.opcodeOf_append _ _)⟩

theorem EncodeShape.andReg (rd rs rt : RegIdx) : EncodeShape.Statement (.andReg rd rs rt) :=
  ⟨rfl, congrArg some (EncodeShape.opcodeOf_append _ _)⟩

theorem EncodeShape.andLong (rd rs : RegIdx) (simm16 : Word) : EncodeShape.Statement (.andLong rd rs simm16) :=
  ⟨rfl, congrArg some (EncodeShape.opcodeOf_append _ _)⟩

theorem EncodeShape.notReg (rd rs : RegIdx) : EncodeShape.Statement (.notReg rd rs) :=
  ⟨rfl, congrArg some (EncodeShape.opcodeOf_append _ _)⟩

theorem EncodeShape.orReg (rd rs rt : RegIdx) : EncodeShape.Statement (.orReg rd rs rt) :=
  ⟨rfl, congrArg some (EncodeShape.opcodeOf_append _ _)⟩

theorem EncodeShape.orLong (rd rs : RegIdx) (simm16 : Word) : EncodeShape.Statement (.orLong rd rs simm16) :=
  ⟨rfl, congrArg some (EncodeShape.opcodeOf_append _ _)⟩

theorem EncodeShape.xorReg (rd rs rt : RegIdx) : EncodeShape.Statement (.xorReg rd rs rt) :=
  ⟨rfl, congrArg some (EncodeShape.opcodeOf_append _ _)⟩

theorem EncodeShape.xorLong (rd rs : RegIdx) (simm16 : Word) : EncodeShape.Statement (.xorLong rd rs simm16) :=
  ⟨rfl, congrArg some (EncodeShape.opcodeOf_append _ _)⟩

theorem EncodeShape.loadReg (rd rs rt : RegIdx) : EncodeShape.Statement (.loadReg rd rs rt) :=
  ⟨rfl, congrArg some (EncodeShape.opcodeOf_append _ _)⟩

theorem EncodeShape.loadShort (rd rs : RegIdx) (simm5 : BitVec 5) : EncodeShape.Statement (.loadShort rd rs simm5) :=
  ⟨rfl, congrArg some (EncodeShape.opcodeOf_append _ _)⟩

theorem EncodeShape.loadLong (rd rs : RegIdx) (simm16 : Word) : EncodeShape.Statement (.loadLong rd rs simm16) :=
  ⟨rfl, congrArg some (EncodeShape.opcodeOf_append _ _)⟩

theorem EncodeShape.storeReg (rd rs rt : RegIdx) : EncodeShape.Statement (.storeReg rd rs rt) :=
  ⟨rfl, congrArg some (EncodeShape.opcodeOf_append _ _)⟩

theorem EncodeShape.storeShort (rd rs : RegIdx) (simm5 : BitVec 5) : EncodeShape.Statement (.storeShort rd rs simm5) :=
  ⟨rfl, congrArg some (EncodeShape.opcodeOf_append _ _)⟩

theorem EncodeShape.storeLong (rd rs : RegIdx) (simm16 : Word) : EncodeShape.Statement (.storeLong rd rs simm16) :=
  ⟨rfl, congrArg some (EncodeShape.opcodeOf_append _ _)⟩

theorem EncodeShape.push (rs : RegIdx) : EncodeShape.Statement (.push rs) :=
  ⟨rfl, congrArg some (EncodeShape.opcodeOf_append _ _)⟩

theorem EncodeShape.pop (rd : RegIdx) : EncodeShape.Statement (.pop rd) :=
  ⟨rfl, congrArg some (EncodeShape.opcodeOf_append _ _)⟩

theorem EncodeShape.callReg (rs : RegIdx) : EncodeShape.Statement (.callReg rs) :=
  ⟨rfl, congrArg some (EncodeShape.opcodeOf_append _ _)⟩

theorem EncodeShape.callShort (simm11 : BitVec 11) : EncodeShape.Statement (.callShort simm11) :=
  ⟨rfl, congrArg some (EncodeShape.opcodeOf_append _ _)⟩

theorem EncodeShape.callLong (imm16 : Word) : EncodeShape.Statement (.callLong imm16) :=
  ⟨rfl, congrArg some (EncodeShape.opcodeOf_append _ _)⟩

theorem EncodeShape.ret : EncodeShape.Statement .ret :=
  ⟨rfl, congrArg some (EncodeShape.opcodeOf_append _ _)⟩

theorem EncodeShape.reti : EncodeShape.Statement .reti :=
  ⟨rfl, congrArg some (EncodeShape.opcodeOf_append _ _)⟩

theorem EncodeShape.sfa : EncodeShape.Statement .sfa :=
  ⟨rfl, congrArg some (EncodeShape.opcodeOf_append _ _)⟩

theorem EncodeShape.sti (a : BitVec 1) : EncodeShape.Statement (.sti a) :=
  ⟨rfl, congrArg some (EncodeShape.opcodeOf_append _ _)⟩

theorem EncodeShape.jumpr (simm11 : BitVec 11) : EncodeShape.Statement (.jumpr simm11) :=
  ⟨rfl, congrArg some (EncodeShape.opcodeOf_append _ _)⟩

theorem EncodeShape.jumpaReg (rs : RegIdx) : EncodeShape.Statement (.jumpaReg rs) :=
  ⟨rfl, congrArg some (EncodeShape.opcodeOf_append _ _)⟩

theorem EncodeShape.jumpaLong (imm16 : Word) : EncodeShape.Statement (.jumpaLong imm16) :=
  ⟨rfl, congrArg some (EncodeShape.opcodeOf_append _ _)⟩

theorem EncodeShape.jumpv (simm11 : BitVec 11) : EncodeShape.Statement (.jumpv simm11) :=
  ⟨rfl, congrArg some (EncodeShape.opcodeOf_append _ _)⟩

theorem EncodeShape.jumpc (simm11 : BitVec 11) : EncodeShape.Statement (.jumpc simm11) :=
  ⟨rfl, congrArg some (EncodeShape.opcodeOf_append _ _)⟩

theorem EncodeShape.jumpnc (simm11 : BitVec 11) : EncodeShape.Statement (.jumpnc simm11) :=
  ⟨rfl, congrArg some (EncodeShape.opcodeOf_append _ _)⟩

theorem EncodeShape.jumpn (simm11 : BitVec 11) : EncodeShape.Statement (.jumpn simm11) :=
  ⟨rfl, congrArg some (EncodeShape.opcodeOf_append _ _)⟩

theorem EncodeShape.jumpnn (simm11 : BitVec 11) : EncodeShape.Statement (.jumpnn simm11) :=
  ⟨rfl, congrArg some (EncodeShape.opcodeOf_append _ _)⟩

theorem EncodeShape.jumpz (simm11 : BitVec 11) : EncodeShape.Statement (.jumpz simm11) :=
  ⟨rfl, congrArg some (EncodeShape.opcodeOf_append _ _)⟩

theorem EncodeShape.jumpnz (simm11 : BitVec 11) : EncodeShape.Statement (.jumpnz simm11) :=
  ⟨rfl, congrArg some (EncodeShape.opcodeOf_append _ _)⟩

end Sys2Proof.Laws
end

