-- ==== Sys2Proof/Laws/Step.lean ====
section
/-! SUPPORT. What an instruction and a step can do, said once: every next state is one of a few updates of the state. -/

namespace Sys2Proof.Machine

/-- A LOAD of a readable word. -/
theorem State.loadInto_of_reads {s : State} {ea v : Word} (h : s.Reads ea v) (len : Nat) (rd : RegIdx) :
    s.loadInto len rd ea = .next ((s.setReg rd v).advance len) := State.readData_of_reads h _

/-- POP at a readable stack word. -/
theorem exec_pop_of_reads {s : State} {v : Word} (h : s.Reads s.sp v) (rd : RegIdx) :
    exec (.pop rd) s = .next (((s.setSp (s.sp + 1#16)).setReg rd v).advance 1) := by
  rw [exec, execPop, State.popWord_of_reads h]

/-- RETURN at a readable stack word. -/
theorem exec_ret_of_reads {s : State} {v : Word} (h : s.Reads s.sp v) :
    exec .ret s = .next ((s.setSp (s.sp + 1#16)).setPc v) := by
  rw [exec, execRet, State.popWord_of_reads h]

/-- RETI at two readable stack words. -/
theorem exec_reti_of_reads {s : State} {fw v : Word} (hf : s.Reads s.sp fw) (hv : s.Reads (s.sp + 1#16) v) :
    exec .reti s =
      .next (((s.setSp (s.sp + 1#16 + 1#16)).restoreFlags (Config.flagsLayout.unpack fw)).setPc v) :=
  State.interruptReturn_next.2 ⟨fw, v, hf, hv, rfl⟩

/-- A STORE to the launch memory. -/
theorem State.storeFrom_of {s : State} {ea : Word} (h : s.hasStorage ea = true) (len : Nat) (rd : RegIdx) :
    s.storeFrom len rd ea = .next ((s.storeWord ea (s.reg rd)).advance len) := State.writeData_of h _ _

/-- PUSH into the launch memory. -/
theorem exec_push_of {s : State} (h : s.hasStorage (s.sp - 1#16) = true) (rs : RegIdx) :
    exec (.push rs) s = .next ((s.pushWord (s.reg rs)).advance 1) := by
  rw [exec, execPush, State.pushData_of h]

/-- A CALL that pushes into the launch memory. -/
theorem State.callTo_of {s : State} (h : s.hasStorage (s.sp - 1#16) = true) (len : Nat) (target : Word) :
    s.callTo len target = .next ((s.pushWord (s.npc len)).setPc target) := State.pushData_of h _ _

/-- A STORE ends in a next state only where there is storage. -/
theorem State.storeFrom_next {s t : State} {ea : Word} {len : Nat} {rd : RegIdx} :
    s.storeFrom len rd ea = .next t ↔ s.hasStorage ea = true ∧ (s.storeWord ea (s.reg rd)).advance len = t := by
  simp only [State.storeFrom, State.writeData_next, Host.Outcome.next.injEq]

/-- PUSH ends in a next state only where there is storage at the new `sp`. -/
theorem exec_push_next {s t : State} {rs : RegIdx} :
    exec (.push rs) s = .next t ↔ s.hasStorage (s.sp - 1#16) = true ∧ (s.pushWord (s.reg rs)).advance 1 = t := by
  simp only [exec, execPush, State.pushData_next, Host.Outcome.next.injEq]

/-- A CALL ends in a next state only where there is storage at the new `sp`. -/
theorem State.callTo_next {s t : State} {len : Nat} {target : Word} :
    s.callTo len target = .next t ↔ s.hasStorage (s.sp - 1#16) = true ∧ (s.pushWord (s.npc len)).setPc target = t := by
  simp only [State.callTo, State.pushData_next, Host.Outcome.next.injEq]

/-- Every next state of an instruction is one of these updates; invariants follow from the cases. -/
theorem exec_next_cases {i : Instr} {s t : State} (h : exec i s = .next t) :
    (∃ len rd r f, t = s.writeResult len rd r f) ∨
    (∃ len rd ea v, s.Reads ea v ∧ t = (s.setReg rd v).advance len) ∨
    (∃ len ea v, s.hasStorage ea = true ∧ t = (s.storeWord ea v).advance len) ∨
    (∃ v pc, s.hasStorage (s.sp - 1#16) = true ∧ t = (s.pushWord v).setPc pc) ∨
    (∃ rd v, s.Reads s.sp v ∧ t = ((s.setSp (s.sp + 1#16)).setReg rd v).advance 1) ∨
    (∃ v, s.Reads s.sp v ∧ t = (s.setSp (s.sp + 1#16)).setPc v) ∨
    (∃ fw v, s.Reads s.sp fw ∧ s.Reads (s.sp + 1#16) v ∧
      t = ((s.setSp (s.sp + 1#16 + 1#16)).restoreFlags (Config.flagsLayout.unpack fw)).setPc v) ∨
    (∃ b, t = (s.setIe b).advance 1) ∨
    (∃ pc, t = s.setPc pc) := by
  have load : ∀ {len : Nat} {rd : RegIdx} {ea : Word}, s.loadInto len rd ea = .next t →
      ∃ len rd ea v, s.Reads ea v ∧ t = (s.setReg rd v).advance len := fun {len rd ea} h => by
    obtain ⟨v, hv, e⟩ := State.readData_next.1 h
    exact ⟨len, rd, ea, v, hv, (Host.Outcome.next.inj e).symm⟩
  have shift : ∀ {rd : RegIdx} {n : BitVec 5} {f : Word → Nat → Word}, s.shiftInto rd n f = .next t →
      ∃ len rd r f, t = s.writeResult len rd r f := fun {rd n f} h => by
    unfold State.shiftInto at h
    split at h
    · cases h
    · exact ⟨1, rd, _, _, (Host.Outcome.next.inj h).symm⟩
  cases i with
  | lsl | lsr => exact .inl (shift h)
  | addReg | addShort | addLong | subReg | andReg | andLong | notReg | orReg | orLong | xorReg | xorLong =>
    cases h; exact .inl ⟨_, _, _, _, rfl⟩
  | loadReg | loadShort | loadLong => exact .inr (.inl (load h))
  | storeReg | storeShort | storeLong =>
    obtain ⟨hs, e⟩ := State.storeFrom_next.1 h
    exact .inr (.inr (.inl ⟨_, _, _, hs, e.symm⟩))
  | push =>
    obtain ⟨hs, e⟩ := exec_push_next.1 h
    exact .inr (.inr (.inr (.inl ⟨_, _, hs, e.symm⟩)))
  | callReg | callShort | callLong =>
    obtain ⟨hs, e⟩ := State.callTo_next.1 h
    exact .inr (.inr (.inr (.inl ⟨_, _, hs, e.symm⟩)))
  | pop rd =>
    obtain ⟨v, hv, e⟩ := State.popWord_next.1 (show execPop rd s = .next t from h)
    exact .inr (.inr (.inr (.inr (.inl ⟨rd, v, hv, (Host.Outcome.next.inj e).symm⟩))))
  | ret =>
    obtain ⟨v, hv, e⟩ := State.popWord_next.1 (show execRet s = .next t from h)
    exact .inr (.inr (.inr (.inr (.inr (.inl ⟨v, hv, (Host.Outcome.next.inj e).symm⟩)))))
  | reti =>
    obtain ⟨fw, v, hf, hv, e⟩ := State.interruptReturn_next.1 h
    exact .inr (.inr (.inr (.inr (.inr (.inr (.inl ⟨fw, v, hf, hv, e.symm⟩))))))
  | sti a => cases h; exact .inr (.inr (.inr (.inr (.inr (.inr (.inr (.inl ⟨_, rfl⟩)))))))
  | sfa | jumpr | jumpaReg | jumpaLong | jumpv | jumpc | jumpnc | jumpn | jumpnn | jumpz | jumpnz =>
    cases h; exact .inr (.inr (.inr (.inr (.inr (.inr (.inr (.inr ⟨_, rfl⟩)))))))

/-- A fetch runs an instruction to a next state exactly when the words at pc are fetched and decode to it. -/
theorem State.fetchInstr_next {s t : State} {run : Instr → Result} :
    s.fetchInstr run = .next t ↔ ∃ w0, s.Fetches s.pc w0 ∧
      ((∃ i, decodeHead w0 = .ok (.done i) ∧ run i = .next t) ∨
       (∃ f imm, decodeHead w0 = .ok (.needs f) ∧ s.Fetches (s.pc + 1#16) imm ∧ run (f imm) = .next t)) := by
  rw [State.fetchInstr, State.fetchWord_next]
  refine exists_congr fun w0 => and_congr_right fun _ => ?_
  split
  · next e => simp [e]
  · next i e => simp [e]
  · next f e =>
    rw [State.fetchWord_next]
    constructor
    · rintro ⟨imm, hi, hr⟩; exact .inr ⟨f, imm, e, hi, hr⟩
    · rintro (⟨i, e', _⟩ | ⟨g, imm, e', hi, hr⟩)
      · rw [e] at e'; cases e'
      · rw [e] at e'; cases e'; exact ⟨imm, hi, hr⟩

/-- The end of a step answers a next state exactly when the instruction did. -/
theorem endStep_next {r : Result} {t : State} : endStep r = .next t ↔ ∃ u, r = .next u ∧ u.nextBoundary = t := by
  cases r <;> simp [endStep]

/-- The step where an interrupt is taken (R146, R147). -/
theorem step_of_interrupt {s : State} (h : s.interruptCondition = true) :
    step s = endStep (s.takeInterrupt Config.flagsLayout Config.intVector) := if_pos h

/-- The same where both stack words have storage. -/
theorem step_of_interrupt_stored {s : State} (h : s.interruptCondition = true) (h1 : s.hasStorage (s.sp - 1#16) = true)
    (h2 : s.hasStorage (s.sp - 1#16 - 1#16) = true) :
    step s = .next (s.interruptEntry Config.flagsLayout Config.intVector).nextBoundary := by
  rw [step_of_interrupt h, State.takeInterrupt_next.2 ⟨h1, h2, rfl⟩]; rfl

/-- The step where no interrupt is taken (R17, R146). -/
theorem step_of_no_interrupt {s : State} (h : s.interruptCondition = false) :
    step s = endStep (s.fetchInstr fun i => exec i s) := by
  rw [step, if_neg (by simp [h])]

/-- A single word decodes exactly when it selects a one-word form. -/
theorem decode_one {w0 : Word} {i : Instr} : decode [w0] = .ok (i, []) ↔ decodeHead w0 = .ok (.done i) := by
  rcases h : decodeHead w0 with why | (j | f) <;> simp [decode, h]

/-- Two words decode with nothing left exactly when the first selects a two-word form. -/
theorem decode_two {w0 imm : Word} {i : Instr} :
    decode [w0, imm] = .ok (i, []) ↔ ∃ f, decodeHead w0 = .ok (.needs f) ∧ f imm = i := by
  rcases h : decodeHead w0 with why | (j | f) <;> simp [decode, h]

/-- Every step that goes on is an interrupt entry or one executed instruction, then the next boundary (R17, R146). -/
theorem step_next_cases {s t : State} (h : step s = .next t) :
    (s.interruptCondition = true ∧ s.hasStorage (s.sp - 1#16) = true ∧ s.hasStorage (s.sp - 1#16 - 1#16) = true ∧
      t = (s.interruptEntry Config.flagsLayout Config.intVector).nextBoundary) ∨
    (s.interruptCondition = false ∧ ∃ i u, s.fetchInstr (fun i => exec i s) = .next u ∧ exec i s = .next u ∧
      t = u.nextBoundary) := by
  unfold step at h
  split at h
  · next hc =>
    obtain ⟨u, hu, rfl⟩ := endStep_next.1 h
    obtain ⟨h1, h2, rfl⟩ := State.takeInterrupt_next.1 hu
    exact .inl ⟨hc, h1, h2, rfl⟩
  · next hc =>
    obtain ⟨u, hu, rfl⟩ := endStep_next.1 h
    refine .inr ⟨by simpa using hc, ?_⟩
    obtain ⟨w0, _, ⟨i, _, hr⟩ | ⟨f, imm, _, _, hr⟩⟩ := State.fetchInstr_next.1 hu
    · exact ⟨i, u, hu, hr, rfl⟩
    · exact ⟨f imm, u, hu, hr, rfl⟩

end Sys2Proof.Machine
end

