-- ==== Sys2Proof/Machine/Assembly.lean ====
section
/-! DEFINITION. The assembler text of each form (R65), in the spec's own notation for registers and numbers (R66, D18). -/

namespace Sys2Proof

/-- A register's name, R0 to R7 (R13, R66). -/
def regText (r : RegIdx) : String := "R" ++ toString r.toNat

/-- A signed short immediate in decimal (R59, R66). -/
def signedText {len : Nat} (k : BitVec len) : String := toString k.toInt

/-- An unsigned number in decimal: a shift count, a long immediate, the operand of STI (R60 to R62, R66). -/
def unsignedText {len : Nat} (k : BitVec len) : String := toString k.toNat

/-- The mnemonic as the source spells it (R3, R65). -/
def Instr.mnemonic (i : Instr) : String :=
  match i with
  | .addReg .. | .addShort .. | .addLong .. => "ADD"
  | .subReg .. => "SUB"
  | .lsl .. => "LSL"
  | .lsr .. => "LSR"
  | .andReg .. | .andLong .. => "AND"
  | .notReg .. => "NOT"
  | .orReg .. | .orLong .. => "OR"
  | .xorReg .. | .xorLong .. => "XOR"
  | .loadReg .. | .loadShort .. | .loadLong .. => "LOAD"
  | .storeReg .. | .storeShort .. | .storeLong .. => "STORE"
  | .push .. => "PUSH"
  | .pop .. => "POP"
  | .callReg .. | .callShort .. | .callLong .. => "CALL"
  | .ret => "RETURN"
  | .reti => "RETI"
  | .sfa => "SFA"
  | .sti .. => "STI"
  | .jumpr .. => "JUMPR"
  | .jumpaReg .. | .jumpaLong .. => "JUMPA"
  | .jumpv .. => "JUMPV"
  | .jumpc .. => "JUMPC"
  | .jumpnc .. => "JUMPnC"
  | .jumpn .. => "JUMPN"
  | .jumpnn .. => "JUMPnN"
  | .jumpz .. => "JUMPZ"
  | .jumpnz .. => "JUMPnZ"

/-- The operands of a form as written, destination first; memory operands are offset, then base in parentheses (R65). -/
def Instr.operandTexts (i : Instr) : List String :=
  match i with
  | .addReg d s t | .subReg d s t | .andReg d s t | .orReg d s t | .xorReg d s t => [regText d, regText s, regText t]
  | .addShort d s k => [regText d, regText s, signedText k]
  | .addLong d s k | .andLong d s k | .orLong d s k | .xorLong d s k => [regText d, regText s, unsignedText k]
  | .lsl d n | .lsr d n => [regText d, unsignedText n]
  | .notReg d s => [regText d, regText s]
  | .loadReg d s t | .storeReg d s t => [regText d, regText t ++ "(" ++ regText s ++ ")"]
  | .loadShort d s k | .storeShort d s k => [regText d, signedText k ++ "(" ++ regText s ++ ")"]
  | .loadLong d s k | .storeLong d s k => [regText d, unsignedText k ++ "(" ++ regText s ++ ")"]
  | .push s | .callReg s | .jumpaReg s => [regText s]
  | .pop d => [regText d]
  | .callShort k | .jumpr k | .jumpv k | .jumpc k | .jumpnc k | .jumpn k | .jumpnn k | .jumpz k | .jumpnz k => [signedText k]
  | .callLong k | .jumpaLong k => [unsignedText k]
  | .sti a => [unsignedText a]
  | .ret | .reti | .sfa => []

/-- One line of assembler text: the mnemonic, a space, the operands separated by a comma and a space (R65). -/
def Instr.assembly (i : Instr) : String :=
  match i.operandTexts with
  | [] => i.mnemonic
  | first :: rest => i.mnemonic ++ " " ++ rest.foldl (fun line x => line ++ ", " ++ x) first

end Sys2Proof
end

