-- ==== Sys2Proof/Tests/Slice0.lean ====
section
/-! SUPPORT. Tests: well-formedness, decoding of words written out from R56, one step on small states with the results of
spec/95_test_vectors.md, and a witness for the hypotheses of each statement. -/

namespace Sys2Proof.Tests

open Sys2Proof.Machine

/-! ### Helpers -/

/-- The setting of 95_test_vectors.md: pc 0x0100, sp 0x8000, all four flags 1, the registers given. -/
def start (regs : List (RegIdx × Word)) : State :=
  regs.foldl (fun s r => s.setReg r.1 r.2)
    { State.reset with pc := 0x0100#16, sp := 0x8000#16, flags := ⟨true, true, true, true⟩ }

/-- The same with words in memory. -/
def place (s : State) (words : List (Word × Word)) : State :=
  words.foldl (fun s w => { s with mem := Memory.writeWord s.mem w.1 w.2 }) s

/-- The state with the flags N, Z, C, V given. -/
def flagged (s : State) (n z c v : Bool) : State := s.setFlags ⟨n, z, c, v⟩

/-- The instruction went on to a state of which `p` holds. -/
def goesOn (r : Result) (p : State → Bool) : Bool :=
  match r with
  | .next t => p t
  | .fault _ => false
  | .refused _ => false

/-- The instruction or step faulted so. -/
def faultsWith (r : Result) (f : Fault) : Bool :=
  match r with
  | .next _ => false
  | .fault g => g == f
  | .refused _ => false

/-- The instruction or step was refused so. -/
def refusedWith (r : Result) (why : Refusal) : Bool :=
  match r with
  | .next _ => false
  | .fault _ => false
  | .refused x => x == why

/-- The words decode, with nothing left, to the instruction. -/
def decodesTo (ws : List Word) (i : Instr) : Bool :=
  match decode ws with
  | .ok (j, rest) => j == i && rest.isEmpty
  | .error _ => false

/-- The first word is refused with the reason. -/
def refusedAs (w0 : Word) (why : Unlisted) : Bool :=
  match decode [w0] with
  | .ok _ => false
  | .error e => e == .unlisted why

/-! ### Identity (R1) -/

theorem test_identity : identity = ⟨"NIMJAR", none, none⟩ ∧ opcodeRows.length = 38 := by decide

/-! ### Well-formedness (R61) -/

/-- Counts 16 to 31 are ill formed. -/
theorem test_illFormed : Instr.wellFormed (.lsl 3 16) = false ∧ Instr.wellFormed (.lsr 3 31) = false := by decide

/-- Counts 0 to 15, and other forms with the same field, are well formed. -/
theorem test_wellFormed : Instr.wellFormed (.lsl 0 15) = true ∧ Instr.wellFormed (.lsr 0 0) = true ∧
    Instr.wellFormed (.addShort 1 2 16) = true ∧ Instr.wellFormed .reti = true := by decide

/-! ### Decoding: a word for every form, written out from R56 and the worked examples (sections 2 to 10) -/

theorem test_decode_addSub : decodesTo [0x294C] (.addReg 1 2 3) ∧ decodesTo [0x693F] (.addShort 1 1 31) ∧
    decodesTo [0x2942, 0x8000] (.addLong 1 2 0x8000) ∧ decodesTo [0x094C] (.subReg 1 2 3) := by decide

theorem test_decode_shifts : decodesTo [0x4B04] (.lsl 3 4) ∧ decodesTo [0x4B10] (.lsl 3 16) ∧
    decodesTo [0x430F] (.lsr 3 15) ∧ decodesTo [0x401F] (.lsr 0 31) := by decide

theorem test_decode_logic : decodesTo [0x394C] (.andReg 1 2 3) ∧ decodesTo [0x3C62, 0x00FF] (.andLong 4 3 0x00FF) ∧
    decodesTo [0x0340] (.notReg 3 2) ∧ decodesTo [0x314C] (.orReg 1 2 3) ∧
    decodesTo [0x3222, 0x0F00] (.orLong 2 1 0x0F00) ∧ decodesTo [0x26D8] (.xorReg 6 6 6) ∧
    decodesTo [0x2142, 0x0FF0] (.xorLong 1 2 0x0FF0) := by decide

theorem test_decode_loads : decodesTo [0x114C] (.loadReg 1 2 3) ∧ decodesTo [0x724F] (.loadShort 2 2 15) ∧
    decodesTo [0x1701, 0x5000] (.loadLong 7 0 0x5000) := by decide

theorem test_decode_stores : decodesTo [0x194C] (.storeReg 1 2 3) ∧ decodesTo [0x795F] (.storeShort 1 2 31) ∧
    decodesTo [0x1DC1, 0x8000] (.storeLong 5 6 0x8000) := by decide

theorem test_decode_stack : decodesTo [0x5860] (.push 3) ∧ decodesTo [0x5400] (.pop 4) := by decide

theorem test_decode_calls : decodesTo [0x8840] (.callReg 2) ∧ decodesTo [0x9EFF] (.callShort 0x6FF) ∧
    decodesTo [0x8801, 0x0300] (.callLong 0x0300) ∧ decodesTo [0xA000] .ret ∧ decodesTo [0xA800] .reti := by decide

theorem test_decode_system : decodesTo [0xB000] .sfa ∧ decodesTo [0x9001] (.sti 1) ∧ decodesTo [0x9000] (.sti 0) := by
  decide

theorem test_decode_jumps : decodesTo [0xE7FE] (.jumpr 0x7FE) ∧ decodesTo [0x80A0] (.jumpaReg 5) ∧
    decodesTo [0x8001, 0x1234] (.jumpaLong 0x1234) := by decide

theorem test_decode_conditional : decodesTo [0xC00A] (.jumpv 10) ∧ decodesTo [0xC80A] (.jumpc 10) ∧
    decodesTo [0xE80A] (.jumpnc 10) ∧ decodesTo [0xD80A] (.jumpn 10) ∧ decodesTo [0xF80A] (.jumpnn 10) ∧
    decodesTo [0xD00A] (.jumpz 10) ∧ decodesTo [0xF00A] (.jumpnz 10) := by decide

/-- The refused words of section 2.2, one reason at a time. -/
theorem test_refused_opcode : refusedAs 0x6000 .opcode ∧ refusedAs 0x67FF .opcode ∧ refusedAs 0xB800 .opcode ∧
    refusedAs 0xBFFF .opcode := by decide

theorem test_refused_mode : refusedAs 0x0001 .mode ∧ refusedAs 0x0802 .mode ∧ refusedAs 0x1002 .mode ∧
    refusedAs 0x2801 .mode ∧ refusedAs 0x2803 .mode ∧ refusedAs 0x8002 .mode := by decide

theorem test_refused_unusedBits : refusedAs 0x0004 .unusedBits ∧ refusedAs 0x2806 .unusedBits ∧
    refusedAs 0x4820 .unusedBits ∧ refusedAs 0x5020 .unusedBits ∧ refusedAs 0x5801 .unusedBits ∧
    refusedAs 0x5900 .unusedBits ∧ refusedAs 0x8021 .unusedBits ∧ refusedAs 0x8900 .unusedBits ∧
    refusedAs 0x9002 .unusedBits ∧ refusedAs 0xA001 .unusedBits ∧ refusedAs 0xB001 .unusedBits := by decide

/-- A two-word form whose second word is missing does not decode. -/
theorem test_missingSecondWord : decode [0x2802#16] = .error .missingSecondWord := by decide

/-- A table word is laid out first word in the low bits; bits above `nbits` are 0. -/
theorem test_tableWord : decodeTableWord 32 0x80001141 = some (.loadLong 1 2 0x8000) ∧
    decodeTableWord 16 0x1141 = some (.loadLong 1 2 0) ∧ decodeTableWord 16 0x6000 = none := by decide

/-- Assembler text (R65, R66; the listings of section 10). -/
theorem test_assembly : (Instr.addShort 1 1 31).assembly = "ADD R1, R1, -1" ∧
    (Instr.loadShort 1 2 0).assembly = "LOAD R1, 0(R2)" ∧ Instr.ret.assembly = "RETURN" ∧
    (Instr.storeReg 1 2 3).assembly = "STORE R1, R3(R2)" ∧ (Instr.lsr 1 15).assembly = "LSR R1, 15" := by decide

/-! ### Arithmetic and logic (section 3): flags N, Z, C, V -/

theorem test_addReg : goesOn (exec (.addReg 1 2 3) (start [(2, 0x8000), (3, 0xFFFF)]))
    (fun t => t.reg 1 == 0x7FFF ∧ t.flags == ⟨false, false, true, true⟩ ∧ t.pc == 0x0101) := by decide

theorem test_addReg_sameRegister : goesOn (exec (.addReg 1 1 1) (start [(1, 0x4001)]))
    (fun t => t.reg 1 == 0x8002 ∧ t.flags == ⟨true, false, false, true⟩) := by decide

theorem test_addShort : goesOn (exec (.addShort 1 2 16) (start [(2, 0x0010)]))
    (fun t => t.reg 1 == 0 ∧ t.flags == ⟨false, true, true, false⟩ ∧ t.pc == 0x0101) := by decide

theorem test_addLong : goesOn (exec (.addLong 1 2 0x8000) (start [(2, 0x8000)]))
    (fun t => t.reg 1 == 0 ∧ t.flags == ⟨false, true, true, true⟩ ∧ t.pc == 0x0102) := by decide

theorem test_subReg : goesOn (exec (.subReg 1 2 3) (start [(2, 3), (3, 5)]))
    (fun t => t.reg 1 == 0xFFFE ∧ t.flags == ⟨true, false, false, true⟩) := by decide

theorem test_subReg_borrow : goesOn (exec (.subReg 1 2 3) (start [(2, 0x7FFF), (3, 0xFFFF)]))
    (fun t => t.reg 1 == 0x8000 ∧ t.flags == ⟨true, false, false, false⟩) := by decide

theorem test_lsl : goesOn (exec (.lsl 3 1) (start [(3, 0x8001)]))
    (fun t => t.reg 3 == 2 ∧ t.flags == ⟨false, false, false, false⟩) := by decide

theorem test_lsl_refused : refusedWith (exec (.lsl 3 16) (start [(3, 1)])) .shiftCount16To31 := by decide

theorem test_lsr : goesOn (exec (.lsr 3 15) (start [(3, 0x8000)]))
    (fun t => t.reg 3 == 1 ∧ t.flags == ⟨false, false, false, false⟩) := by decide

theorem test_lsr_zero : goesOn (exec (.lsr 3 0) (start [(3, 0x8000)]))
    (fun t => t.reg 3 == 0x8000 ∧ t.flags == ⟨true, false, false, false⟩) := by decide

theorem test_andReg : goesOn (exec (.andReg 1 2 3) (start [(2, 0xF0F0), (3, 0xFF00)]))
    (fun t => t.reg 1 == 0xF000 ∧ t.flags == ⟨true, false, false, false⟩) := by decide

theorem test_andLong : goesOn (exec (.andLong 1 2 0x0FF0) (start [(2, 0xF0F0)]))
    (fun t => t.reg 1 == 0x00F0 ∧ t.flags == ⟨false, false, false, false⟩ ∧ t.pc == 0x0102) := by decide

theorem test_notReg : goesOn (exec (.notReg 1 2) (start [(2, 0xFFFF)]))
    (fun t => t.reg 1 == 0 ∧ t.flags == ⟨false, true, false, false⟩) := by decide

theorem test_notReg_sameRegister : goesOn (exec (.notReg 5 5) (start [(5, 0x5555)]))
    (fun t => t.reg 5 == 0xAAAA ∧ t.flags == ⟨true, false, false, false⟩) := by decide

theorem test_orReg : goesOn (exec (.orReg 1 2 3) (start [(2, 0x00FF), (3, 0xFF00)]))
    (fun t => t.reg 1 == 0xFFFF ∧ t.flags == ⟨true, false, false, false⟩) := by decide

theorem test_orLong : goesOn (exec (.orLong 1 2 0x0FF0) (start [(2, 0xF0F0)]))
    (fun t => t.reg 1 == 0xFFF0 ∧ t.flags == ⟨true, false, false, false⟩ ∧ t.pc == 0x0102) := by decide

theorem test_xorReg : goesOn (exec (.xorReg 1 2 3) (start [(2, 0xF0F0), (3, 0xFF00)]))
    (fun t => t.reg 1 == 0x0FF0 ∧ t.flags == ⟨false, false, false, false⟩) := by decide

theorem test_xorLong : goesOn (exec (.xorLong 1 2 0xFFFF) (start [(2, 0x1234)]))
    (fun t => t.reg 1 == 0xEDCB ∧ t.flags == ⟨true, false, false, false⟩ ∧ t.pc == 0x0102) := by decide

/-! ### Load and store (section 4) -/

theorem test_loadReg : goesOn
    (exec (.loadReg 1 2 3) (flagged (place (start [(2, 0xFFFF), (3, 2)]) [(1, 0x00AA)]) true false true false))
    (fun t => t.reg 1 == 0x00AA ∧ t.pc == 0x0101 ∧ t.flags == ⟨true, false, true, false⟩) := by decide

theorem test_loadReg_unwritten : faultsWith (exec (.loadReg 1 2 3) (start [(2, 0x4000), (3, 0x0010)]))
    (.readOfUnwrittenWord 0x4010) := by decide

theorem test_loadShort : goesOn (exec (.loadShort 1 2 16) (place (start [(2, 0x4010)]) [(0x4000, 0x1111)]))
    (fun t => t.reg 1 == 0x1111) := by decide

theorem test_loadShort_baseOverwritten : goesOn (exec (.loadShort 2 2 15) (place (start [(2, 0x4000)]) [(0x400F, 0x2222)]))
    (fun t => t.reg 2 == 0x2222) := by decide

theorem test_loadLong : goesOn (exec (.loadLong 1 2 0xFFFF) (place (start [(2, 0x4001)]) [(0x4000, 0x3333)]))
    (fun t => t.reg 1 == 0x3333 ∧ t.pc == 0x0102) := by decide

theorem test_storeReg : goesOn (exec (.storeReg 1 2 3) (start [(1, 0xBEEF), (2, 0x4000), (3, 0xFFFF)]))
    (fun t => t.word? 0x3FFF == some 0xBEEF ∧ t.word? 0x4000 == none ∧ t.pc == 0x0101) := by decide

theorem test_storeShort : goesOn (exec (.storeShort 1 2 31) (start [(1, 0xBEEF), (2, 0)]))
    (fun t => t.word? 0xFFFF == some 0xBEEF ∧ t.mem == [(0x1FFFE, 0xEF), (0x1FFFF, 0xBE)]) := by decide

theorem test_storeShort_baseStored : goesOn (exec (.storeShort 2 2 3) (start [(2, 0x6000)]))
    (fun t => t.word? 0x6003 == some 0x6000) := by decide

theorem test_storeLong : goesOn (exec (.storeLong 5 6 0x8000) (start [(5, 0x0042), (6, 0x8001)]))
    (fun t => t.word? 1 == some 0x0042 ∧ t.pc == 0x0102 ∧ t.written == [1]) := by decide

/-! ### Stack (section 5) -/

theorem test_push : goesOn (exec (.push 3) (start [(3, 0xABCD)]))
    (fun t => t.sp == 0x7FFF ∧ t.word? 0x7FFF == some 0xABCD ∧ t.pc == 0x0101) := by decide

theorem test_push_wraps : goesOn (exec (.push 0) ((start [(0, 1)]).setSp 0))
    (fun t => t.sp == 0xFFFF ∧ t.word? 0xFFFF == some 1) := by decide

theorem test_pop : goesOn (exec (.pop 4) ((place (start []) [(0x7FFF, 0xABCD)]).setSp 0x7FFF))
    (fun t => t.reg 4 == 0xABCD ∧ t.sp == 0x8000 ∧ t.word? 0x7FFF == some 0xABCD) := by decide

theorem test_pop_wraps : goesOn (exec (.pop 7) ((place (start []) [(0xFFFF, 0x0077)]).setSp 0xFFFF))
    (fun t => t.reg 7 == 0x0077 ∧ t.sp == 0) := by decide

/-! ### Call and return (section 6) -/

theorem test_callReg : goesOn (exec (.callReg 2) (start [(2, 0x0400)]))
    (fun t => t.sp == 0x7FFF ∧ t.word? 0x7FFF == some 0x0101 ∧ t.pc == 0x0400) := by decide

theorem test_callShort : goesOn (exec (.callShort 0x6FF) (start []))
    (fun t => t.word? 0x7FFF == some 0x0101 ∧ t.pc == 0) := by decide

theorem test_callLong : goesOn (exec (.callLong 0x0300) ((start []).setPc 0xFFFE))
    (fun t => t.word? 0x7FFF == some 0 ∧ t.pc == 0x0300) := by decide

theorem test_ret : goesOn (exec .ret ((place (start []) [(0x7FFF, 0x0102)]).setSp 0x7FFF))
    (fun t => t.pc == 0x0102 ∧ t.sp == 0x8000) := by decide

/-- RETI with the illustrative layout (the machine's own layout is open). -/
theorem test_reti_illustrative : goesOn
    (((place (start []) [(0x7FFE, 0x0016), (0x7FFF, 0x0002)]).setSp 0x7FFE).interruptReturn FlagsLayout.illustrative)
    (fun t => t.pc == 2 ∧ t.sp == 0x8000 ∧ t.flags == ⟨false, true, true, false⟩ ∧ t.ie == true) := by decide

/-- Section 6: bits 15 to 5 are ignored by the illustrative layout. -/
theorem test_reti_illustrative_ignoredBits : goesOn
    (((place (start []) [(0x7FFE, 0xFFE0), (0x7FFF, 0x0002)]).setSp 0x7FFE).interruptReturn FlagsLayout.illustrative)
    (fun t => t.pc == 2 ∧ t.flags == ⟨false, false, false, false⟩ ∧ t.ie == false) := by decide

/-- Interrupt entry with the illustrative layout and vector 0x0040 (section 9). -/
theorem test_interruptEntry_illustrative :
    let s := flagged (((start []).setPc 2).setIe true) false true true false
    let t := s.interruptEntry FlagsLayout.illustrative 0x0040
    t.word? 0x7FFF = some 2 ∧ t.word? 0x7FFE = some 0x0016 ∧ t.sp = 0x7FFE ∧ t.ie = false ∧ t.pc = 0x0040 ∧
      t.flags = ⟨false, true, true, false⟩ := by decide

/-! ### System and jumps (sections 7 and 8) -/

theorem test_sfa : goesOn (exec .sfa ((start []).setPc 0x0020)) (fun t => t == (start []).setPc 0x0021) := by decide

theorem test_sti : goesOn (exec (.sti 1) (start [])) (fun t => t.ie ∧ t.pc == 0x0101) ∧
    goesOn (exec (.sti 0) ((start []).setIe true)) (fun t => !t.ie && t.pc == 0x0101) := by decide

theorem test_jumpr : goesOn (exec (.jumpr 0x7FE) ((start []).setPc 0)) (fun t => t.pc == 0xFFFF) ∧
    goesOn (exec (.jumpr 0x3FF) ((start []).setPc 0xFFFF)) (fun t => t.pc == 0x03FF) := by decide

theorem test_jumpa : goesOn (exec (.jumpaReg 5) (start [(5, 0xBEEF)])) (fun t => t.pc == 0xBEEF) ∧
    goesOn (exec (.jumpaLong 0x1234) (start [])) (fun t => t.pc == 0x1234) := by decide

/-- Section 8, first half: the tested flag alone is 0, the others 1. -/
theorem test_conditional_flagClear :
    goesOn (exec (.jumpv 10) (flagged ((start []).setPc 0x0200) true true true false)) (fun t => t.pc == 0x0201) ∧
    goesOn (exec (.jumpc 10) (flagged ((start []).setPc 0x0200) true true false true)) (fun t => t.pc == 0x0201) ∧
    goesOn (exec (.jumpnc 10) (flagged ((start []).setPc 0x0200) true true false true)) (fun t => t.pc == 0x020B) ∧
    goesOn (exec (.jumpn 10) (flagged ((start []).setPc 0x0200) false true true true)) (fun t => t.pc == 0x0201) ∧
    goesOn (exec (.jumpnn 10) (flagged ((start []).setPc 0x0200) false true true true)) (fun t => t.pc == 0x020B) ∧
    goesOn (exec (.jumpz 10) (flagged ((start []).setPc 0x0200) true false true true)) (fun t => t.pc == 0x0201) ∧
    goesOn (exec (.jumpnz 10) (flagged ((start []).setPc 0x0200) true false true true)) (fun t => t.pc == 0x020B) := by
  decide

/-- Section 8, second half: the tested flag alone is 1, the others 0. -/
theorem test_conditional_flagSet :
    goesOn (exec (.jumpv 10) (flagged ((start []).setPc 0x0200) false false false true)) (fun t => t.pc == 0x020B) ∧
    goesOn (exec (.jumpc 10) (flagged ((start []).setPc 0x0200) false false true false)) (fun t => t.pc == 0x020B) ∧
    goesOn (exec (.jumpnc 10) (flagged ((start []).setPc 0x0200) false false true false)) (fun t => t.pc == 0x0201) ∧
    goesOn (exec (.jumpn 10) (flagged ((start []).setPc 0x0200) true false false false)) (fun t => t.pc == 0x020B) ∧
    goesOn (exec (.jumpnn 10) (flagged ((start []).setPc 0x0200) true false false false)) (fun t => t.pc == 0x0201) ∧
    goesOn (exec (.jumpz 10) (flagged ((start []).setPc 0x0200) false true false false)) (fun t => t.pc == 0x020B) ∧
    goesOn (exec (.jumpnz 10) (flagged ((start []).setPc 0x0200) false true false false)) (fun t => t.pc == 0x0201) := by
  decide

/-! ### Steps -/

/-- From reset with `XOR R1, R2, 0xFFFF` placed, the next step runs it. -/
theorem test_step_twoWords : goesOn (step (State.reset.withFetchWord 32 0xFFFF2142))
    (fun t => t.reg 1 == 0xFFFF ∧ t.pc == 2 ∧ t.boundary == 1) := by decide

/-- From bare reset the first fetch finds no word (R172). -/
theorem test_step_reset : faultsWith (step State.reset) (.readOfUnwrittenWord 0) := by decide

/-- The refused programs of section P5. -/
theorem test_step_refused : refusedWith (step (State.reset.withFetchWord 16 0x6000)) .unlistedOpcode ∧
    refusedWith (step (State.reset.withFetchWord 16 0x4B10)) .shiftCount16To31 := by decide

/-- The launch of the third program of P5, where no unified memory is stated. -/
def selfModifying (org : MemOrg) : State :=
  { place (start [(0, 1), (1, 0xB000)]) [(0, 0x7900), (1, 0xE7FF)] with pc := 0, memOrg := org, text := [0, 1] }

/-- The third program of P5: the step after the store is refused; on a unified memory it executes SFA. -/
theorem test_step_fetchOfWrittenWord :
    goesOn (step (selfModifying .notStated)) (fun t => refusedWith (step t) .fetchOfWrittenWord) ∧
    goesOn (step (selfModifying .unified)) (fun t => goesOn (step t) (fun u => u.pc == 2)) := by decide

/-- A data read of program text where no unified memory is stated (R43). -/
theorem test_loadOfProgramText : refusedWith (exec (.loadShort 2 0 0) (selfModifying .notStated)) .loadOfProgramText ∧
    goesOn (exec (.loadShort 2 0 0) (selfModifying .unified)) (fun t => t.reg 2 == 0xE7FF) := by decide

/-- A launch memory of 0x4010 words that leaves out a device's word at 0x3000. -/
def narrow (s : State) : State := { s with memWords := 0x4010, excluded := [0x3000] }

/-- An access outside the launch memory is stuck (R90, R141, U12), at its edge and at the word left out. -/
theorem test_outsideLaunchMemory :
    faultsWith (exec (.loadReg 1 2 3) (narrow (place (start [(2, 0x4000), (3, 0x0010)]) [(0x4010, 1)])))
      (.accessOutsideLaunchMemory 0x4010) ∧
    goesOn (exec (.loadReg 1 2 3) (narrow (place (start [(2, 0x4000), (3, 0x000F)]) [(0x400F, 1)]))) (fun t => t.reg 1 == 1) ∧
    faultsWith (exec (.storeShort 1 2 0) (narrow (start [(2, 0x3000)]))) (.accessOutsideLaunchMemory 0x3000) ∧
    faultsWith (exec (.push 0) (narrow (start []))) (.accessOutsideLaunchMemory 0x7FFF) ∧
    faultsWith (step (narrow ((start []).setPc 0x5000))) (.accessOutsideLaunchMemory 0x5000) := by decide

/-- A placed program is program text (R26): where no unified memory is stated a LOAD of its own word is refused (R43). -/
theorem test_placedProgram_isText :
    (State.reset.withFetchWord 16 0x7000).text = [0, 1] ∧
    refusedWith (step ({ State.reset with memOrg := .notStated }.withFetchWord 16 0x7000)) .loadOfProgramText := by decide

/-! ### Witnesses: states and operands that meet the hypotheses of the statements -/

/-- Words to read at 0x4010 and at the two words from sp. -/
def readable : State :=
  place (start [(2, 0x4000), (3, 0x0010)]) [(0x4010, 0xCAFE), (0x8000, 0x0016), (0x8001, 0x0002)]

/-- The same where no unified memory is stated and the words read are program text. -/
def guarded : State := { readable with memOrg := .notStated, text := [0x4010, 0x8000] }

theorem test_witness_AddFlagsAreCarryAndSignedOverflow (s : State) :
    (∃ b, Instr.addReg 1 2 3 = .addReg 1 2 b ∧ s.reg 3 = s.reg b) ∧
    (∃ k : BitVec 5, Instr.addShort 1 2 16 = .addShort 1 2 k ∧ (0xFFF0#16) = k.signExtend 16) ∧
    Instr.addLong 1 2 0x8000 = .addLong 1 2 0x8000#16 := ⟨⟨3, rfl, rfl⟩, ⟨16, rfl, rfl⟩, rfl⟩

/-- Both shift statements: the least and the greatest count. -/
theorem test_witness_shifts : (0#5).toNat < 16 ∧ (15#5).toNat < 16 := by decide

/-- ShiftCountRefused: both sides occur. -/
theorem test_witness_ShiftCountRefused :
    Instr.wellFormed (.lsr 0 16) = false ∧ Instr.wellFormed (.lsr 0 15) = true := by decide

theorem test_witness_LoadRegisterResult : readable.Reads (readable.reg 2 + readable.reg 3) 0xCAFE :=
  ⟨by decide, by decide, by decide⟩

theorem test_witness_LoadShortResult : let s := place (start [(2, 0)]) [(0xFFF0, 7)]
    ((0xFFF0#16).toNat : Int) = ((s.reg 2).toNat + (16#5).toInt) % 65536 ∧ s.Reads 0xFFF0 7 :=
  ⟨by decide, by decide, by decide, by decide⟩

theorem test_witness_LoadLongResult : readable.Reads (readable.reg 2 + 0x0010) 0xCAFE :=
  ⟨by decide, by decide, by decide⟩

/-- The three STORE results: an address of the launch memory, the last one. -/
theorem test_witness_stores : readable.hasStorage (readable.reg 2 + 0xBFFF#16) = true ∧
    (narrow readable).hasStorage (readable.reg 2 + (15#5).signExtend 16) = true ∧
    readable.hasStorage (readable.reg 2 + readable.reg 3) = true := by decide

/-- LoadAndStoreStops: each branch of its conclusions. -/
theorem test_witness_LoadAndStoreStops : LoadsAt (.loadReg 1 2 3) guarded 1 0x4010 ∧
    StoresAt (.storeReg 1 2 3) guarded 1 0x4010 ∧ (narrow guarded).hasStorage 0x4010 = false ∧
    guarded.hasStorage 0x4010 = true ∧ guarded.textGuards 0x4010 = true ∧
    readable.textGuards 0x4011 = false ∧ readable.word? 0x4011 = none ∧ readable.word? 0x4010 = some 0xCAFE :=
  ⟨.inl ⟨2, 3, rfl, by decide⟩, .inl ⟨2, 3, rfl, by decide⟩, by decide, by decide, by decide, by decide, by decide, by decide⟩

/-- LoadAfterStore: a STORE, then a LOAD and a STORE at the same address in other forms, and a LOAD from another readable
one. -/
theorem test_witness_LoadAfterStore : StoresAt (.storeShort 1 2 0) readable 1 0x4000 ∧
    ∃ t, exec (.storeShort 1 2 0) readable = .next t ∧ LoadsAt (.loadLong 5 3 0x3FF0) t 5 0x4000 ∧
      StoresAt (.storeLong 6 3 0x3FF0) t 6 0x4000 ∧ LoadsAt (.loadReg 5 2 3) t 5 0x4010 ∧ readable.Reads 0x4010 0xCAFE :=
  ⟨.inr (.inl ⟨2, 0, rfl, by decide⟩), _, rfl, .inr (.inr ⟨3, 0x3FF0, rfl, by decide⟩),
    .inr (.inr ⟨3, 0x3FF0, rfl, by decide⟩), .inl ⟨2, 3, rfl, by decide⟩, by decide, by decide, by decide⟩

/-- PopResult, ReturnResult and RetiResult; the second word is for RETI. -/
theorem test_witness_pops : readable.Reads readable.sp 0x0016 ∧ readable.Reads (readable.sp + 1) 0x0002 :=
  ⟨⟨by decide, by decide, by decide⟩, by decide, by decide, by decide⟩

/-- PushResult, the CALL results and PushThenPop: the stack words have storage. -/
theorem test_witness_pushes : readable.hasStorage (readable.sp - 1) = true ∧ readable.hasStorage (readable.sp - 2) = true ∧
    (4 : RegIdx) ≠ 5 := by decide

theorem test_witness_CallThenReturn : ∃ t, exec (.callLong 0x0300) readable = .next t ∧
    t.hasStorage t.sp = true ∧ t.textGuards t.sp = false := ⟨_, rfl, by decide, by decide⟩

/-- StackStops: no storage for a push and for a pop, a guarded and an unwritten word at sp, then the same three at the
word above it. -/
theorem test_witness_StackStops :
    ((narrow (start [])).hasStorage 0x7FFF = false ∧ (narrow (start [])).hasStorage 0x8000 = false) ∧
    (guarded.hasStorage guarded.sp = true ∧ guarded.textGuards guarded.sp = true) ∧
    ((start []).hasStorage 0x8000 = true ∧ (start []).textGuards 0x8000 = false ∧ (start []).word? 0x8000 = none) ∧
    (let s := ({ readable with memWords := 0x8001 } : State);
      s.Reads s.sp 0x0016 ∧ s.hasStorage (s.sp + 1) = false) ∧
    (let s := ({ guarded with text := [0x8001] } : State);
      s.Reads s.sp 0x0016 ∧ s.hasStorage (s.sp + 1) = true ∧ s.textGuards (s.sp + 1) = true) ∧
    (let s := place (start []) [(0x8000, 5)];
      s.Reads s.sp 5 ∧ s.hasStorage (s.sp + 1) = true ∧ s.textGuards (s.sp + 1) = false ∧ s.word? (s.sp + 1) = none) :=
  ⟨by decide, by decide, by decide, ⟨⟨by decide, by decide, by decide⟩, by decide⟩,
    ⟨⟨by decide, by decide, by decide⟩, by decide, by decide⟩,
    ⟨by decide, by decide, by decide⟩, by decide, by decide, by decide⟩

/-- ConditionalJumpResults: a jump of its list. -/
theorem test_witness_ConditionalJumpResults (s : State) :
    (Instr.jumpz 10, 0b11010#5, s.flags.z) ∈ [(Instr.jumpn 10, 0b11011#5, s.flags.n), (.jumpz 10, 0b11010#5, s.flags.z)] :=
  .tail _ (.head _)

/-- The tables: an instruction that goes on, a register it does not write, no flag, IE = 0, another word. -/
theorem test_witness_tables : (∃ t, exec (.storeLong 1 2 0) readable = .next t) ∧
    writtenReg (.storeLong 1 2 0) ≠ some 1 ∧ writesFlags (.storeLong 1 2 0) = false ∧ writesIe (.storeLong 1 2 0) = false ∧
    readable.ie = false ∧ storedAddress (.storeLong 1 2 0) readable ≠ some 0x4001 :=
  ⟨⟨_, rfl⟩, by decide, by decide, by decide, by decide, by decide⟩

/-- A state about to run the instruction with these bits. -/
def about (nbits w : Nat) : State := State.reset.withFetchWord nbits w

theorem test_witness_WordsKeepHoldingValues :
    goesOn (step (about 16 0xB000)) (fun _ => true) ∧ ((about 16 0xB000).word? 0).isSome = true := by decide

/-- StepRunsDecodedInstruction, one word and two words, with its three outcomes. -/
theorem test_witness_StepRunsDecodedInstruction :
    ((about 16 0xB000).interruptCondition = false ∧ (about 16 0xB000).Fetches 0 0xB000 ∧
      decode [0xB000#16] = .ok (.sfa, [])) ∧
    ((about 32 0x50001141).Fetches 0 0x1141 ∧ (about 32 0x50001141).Fetches 1 0x5000 ∧
      decode [0x1141#16, 0x5000#16] = .ok (.loadLong 1 2 0x5000, [])) ∧
    faultsWith (exec (.loadLong 1 2 0x5000) (about 32 0x50001141)) (.readOfUnwrittenWord 0x5000) ∧
    refusedWith (exec (.lsl 3 16) (about 16 0x4B10)) .shiftCount16To31 :=
  ⟨⟨by decide, ⟨by decide, by decide, by decide⟩, by decide⟩,
    ⟨⟨by decide, by decide, by decide⟩, ⟨by decide, by decide, by decide⟩, by decide⟩, by decide, by decide⟩

/-- FetchStops: the storage, the guards and the words of its clauses (IE = 0 in all), for each of the two words. -/
theorem test_witness_FetchStops :
    ({ selfModifying .notStated with written := [0] } : State).writtenGuards 0 = true ∧
    (start []).word? (start []).pc = none ∧
    (about 16 0x6000).word? 0 = some 0x6000 ∧ refusedAs 0x6000 .opcode ∧
    (about 16 0x2803).word? 0 = some 0x2803 ∧ refusedAs 0x2803 .mode ∧
    (about 16 0x0004).word? 0 = some 0x0004 ∧ refusedAs 0x0004 .unusedBits ∧
    faultsWith (step (place (start []) [(0x0100, 0x8001)])) (.readOfUnwrittenWord 0x0101) ∧
    faultsWith (step ({ place (start []) [(0x0100, 0x8001)] with memWords := 0x0101 })) (.accessOutsideLaunchMemory 0x0101) ∧
    refusedWith (step ({ place (start []) [(0x0100, 0x8001), (0x0101, 5)] with memOrg := .notStated, written := [0x0101] }))
      .fetchOfWrittenWord ∧
    (narrow ((start []).setPc 0x4010)).hasStorage 0x4010 = false := by decide

/-- InterruptEntryEffect and InterruptEntryThenReturnRestores. -/
theorem test_witness_interruptEntry :
    let s := ({ (start []).setIe true with irqInput := [true] } : State)
    s.ie = true ∧ s.irq = true ∧ s.hasStorage (s.sp - 1) = true ∧ s.hasStorage (s.sp - 2) = true := by decide

/-- InterruptEntryEffect: a step stuck at the first push, and one stuck at the second. -/
theorem test_witness_interruptEntry_stuck :
    let s := ({ (start []).setIe true with irqInput := [true] } : State)
    faultsWith (step ({ s with excluded := [0x7FFF] })) (.accessOutsideLaunchMemory 0x7FFF) ∧
    faultsWith (step ({ s with excluded := [0x7FFE] })) (.accessOutsideLaunchMemory 0x7FFE) := by decide

/-- DisabledInterruptsAreNotTaken: the three outcomes with IE = 0. -/
theorem test_witness_DisabledInterruptsAreNotTaken : (about 16 0xB000).ie = false ∧
    goesOn (step (about 16 0xB000)) (fun _ => true) ∧ faultsWith (step (start [])) (.readOfUnwrittenWord 0x0100) ∧
    refusedWith (step (about 16 0x6000)) .unlistedOpcode := by decide

/-- EndedRunStays with IE = 0, and with IE = 1 and irq scripted not raised at the next three boundaries. -/
theorem test_witness_EndedRunStays : ((about 16 0xE7FF).EndedAt 0 ∧ (about 16 0xE7FF).Fetches 0 0xE7FF) ∧
    (let s := ({ about 16 0xE7FF with ie := true, irqInput := [false, false, false] } : State);
      s.ie = true ∧ s.pc = 0 ∧ s.Fetches 0 0xE7FF ∧ s.QuietFor 3 ∧ goesOn (run 3 s) (fun t => t.pc == 0 ∧ t.boundary == 3)) :=
  ⟨⟨⟨by decide, .inl (by decide)⟩, by decide, by decide, by decide⟩, by decide, by decide, ⟨by decide, by decide, by decide⟩,
    .inr (by decide), by decide⟩

/-- AccessesAccountForStep: a two-word LOAD whose word holds a value, in the order of R44 (instruction word, immediate
word, data word: the corner case of R93). -/
theorem test_witness_AccessesAccountForStep :
    let s := place (about 32 0x50001141) [(0x5000, 7)]
    s.stepAccesses = [.fetch 0, .fetch 1, .read 0x5000] ∧ goesOn (step s) (fun t => t.reg 1 == 7) := by decide

/-- RETI reads the flags word first, then the return address. -/
theorem test_accesses_reti : dataAccesses .reti readable = [.read 0x8000, .read 0x8001] := by decide

/-- AccessesAccountForStep: RETI's first access that cannot be made is the word at sp, its second the one above. -/
theorem test_witness_AccessesAccountForStep_stop :
    let s := about 16 0xA800
    s.stepAccesses = [.fetch 0, .read 0, .read 1] ∧
    faultsWith (step (s.setSp 0x8000)) (.readOfUnwrittenWord 0x8000) ∧
    faultsWith (step (s.setSp 1)) (.readOfUnwrittenWord 2) := by decide

/-- StiActsAtNextBoundary: STI 1 with irq = 1 at the boundary after it. -/
theorem test_witness_StiActsAtNextBoundary :
    let s := ({ about 16 0x9001 with irqInput := [false, true] } : State)
    s.interruptCondition = false ∧ s.writtenGuards 0 = false ∧ s.word? s.pc = some 0x9001 ∧
      decodesTo [0x9001] (.sti 1) ∧ goesOn (step s) (fun t => t.interruptCondition) := by decide

theorem test_witness_EncodeDecode : decode [0x1141#16, 0x8000#16, 7#16] = .ok (.loadLong 1 2 0x8000, [7#16]) := by decide

theorem test_witness_StepKeepsInvariant : (about 16 0xB000).Inv ∧ ∃ t, step (about 16 0xB000) = .next t :=
  ⟨⟨by decide, by decide, by decide, by decide, fun a _ => (State.hasStorage_iff _ a).2 ⟨a.isLt, List.not_mem_nil⟩,
    fun a h => absurd (show a.toNat ∈ ([] : List Nat) from h) List.not_mem_nil⟩, _, rfl⟩

/-- GuardedStepAgreesWithSplitMemories: an instruction memory with the program, the same data. -/
theorem test_witness_GuardedStepAgreesWithSplitMemories :
    SplitAgrees (selfModifying .notStated).word? (selfModifying .notStated) (selfModifying .unified) ∧
    ∃ t, step (selfModifying .notStated) = .next t :=
  ⟨⟨rfl, rfl, rfl, rfl, rfl, rfl, rfl, rfl, rfl, rfl, rfl, rfl, rfl, fun _ _ => rfl, fun _ _ => rfl⟩, _, rfl⟩

end Sys2Proof.Tests
end

section
/-! PROOFS. The statements about ADD, AND, NOT, OR and XOR (40_arithmetic_logic.md, R71 to R73 and R77 to R83). Each form
is `addInto` or `logicInto` of its operands, and the whole effect of these two is said once. -/

namespace Sys2Proof.Machine

/-! ### What the shared operations leave -/

/-- The whole effect of an addition, with C and V by the printed lines (R71). -/
theorem State.addInto_effect (s : State) (len : Nat) (rd : RegIdx) (a b : Word) :
    ResultEffect s (s.addInto len rd a b) len rd (a + b) (carryLine a b (a + b)) (overflowLine a b (a + b)) :=
  s.writeResult_effect len rd (a + b) _ _

/-- The whole effect of a shift or a logic form: C and V are cleared (R70). -/
theorem State.logicInto_effect (s : State) (len : Nat) (rd : RegIdx) (r : Word) :
    ResultEffect s (s.logicInto len rd r) len rd r false false :=
  s.writeResult_effect len rd r false false

/-- A form that completes by `logicInto` completes as the rules of the logic forms say (R77 to R83). -/
theorem logic_form_completes {i : Instr} {s : State} {len : Nat} {rd : RegIdx} {r : Word} {op : BitVec 5} {fmt : Format}
    (hexec : exec i s = .next (s.logicInto len rd r)) (hform : HasForm i op fmt len) :
    ∃ t, exec i s = .next t ∧ HasForm i op fmt len ∧ ResultEffect s t len rd r false false :=
  ⟨_, hexec, hform, s.logicInto_effect len rd r⟩

/-- Sign extension of a short immediate to a word keeps its signed value (R59). -/
theorem sext16_toInt {len : Nat} (k : BitVec len) (h : len ≤ 16) : (sext16 k).toInt = k.toInt :=
  BitVec.toInt_signExtend_of_le h

/-- The complement of a word is zero exactly for the word of 16 ones (R79). -/
theorem not_eq_zero_iff_eq_ones (w : Word) : ~~~ w = 0#16 ↔ w = 0xFFFF#16 := by
  rw [BitVec.not_eq_comm, show ~~~0#16 = 0xFFFF#16 from rfl]

/-! ### ADD -/

/-- Settles O1: ADD d, s, t is `addInto` of the two registers. -/
theorem addRegisterResult : Obligations.AddRegisterResult := fun d a b s =>
  ⟨_, rfl, ⟨rfl, rfl, rfl⟩, s.addInto_effect 1 d (s.reg a) (s.reg b)⟩

/-- Settles O2: the word with the immediate's signed value is its sign extension. -/
theorem addShortResult : Obligations.AddShortResult := fun d a k s =>
  ⟨_, rfl, ⟨rfl, rfl, rfl⟩, sext16 k, sext16_toInt k (by decide), s.addInto_effect 1 d (s.reg a) (sext16 k)⟩

/-- Settles O3: ADD d, s, simm16 is `addInto` of the register and the second word, over two words. -/
theorem addLongResult : Obligations.AddLongResult := fun d a y s =>
  ⟨_, rfl, ⟨rfl, rfl, rfl⟩, s.addInto_effect 2 d (s.reg a) y⟩

/-! ### AND, NOT, OR, XOR -/

/-- Settles O10: both forms of AND complete by `logicInto`. -/
theorem andResults : Obligations.AndResults := fun _ _ _ _ _ =>
  ⟨logic_form_completes rfl ⟨rfl, rfl, rfl⟩, logic_form_completes rfl ⟨rfl, rfl, rfl⟩⟩

/-- Settles O11: the result is the bitwise complement, which is zero only for the operand of all ones. -/
theorem notResult : Obligations.NotResult := by
  intro d a s
  have effect := s.logicInto_effect 1 d (~~~ s.reg a)
  refine ⟨_, ~~~ s.reg a, rfl, ⟨rfl, rfl, rfl⟩, fun i hi => ?bits, effect, ?zero⟩
  case bits => simp [hi]
  case zero => rw [effect.zero, decide_eq_true_iff, not_eq_zero_iff_eq_ones]

/-- Settles O12: both forms of OR complete by `logicInto`. -/
theorem orResults : Obligations.OrResults := fun _ _ _ _ _ =>
  ⟨logic_form_completes rfl ⟨rfl, rfl, rfl⟩, logic_form_completes rfl ⟨rfl, rfl, rfl⟩⟩

/-- Settles O13: both forms of XOR complete by `logicInto`. -/
theorem xorResults : Obligations.XorResults := fun _ _ _ _ _ =>
  ⟨logic_form_completes rfl ⟨rfl, rfl, rfl⟩, logic_form_completes rfl ⟨rfl, rfl, rfl⟩⟩

end Sys2Proof.Machine
end

section
/-! PROOFS. The statements about single forms of LOAD and STORE (41_load_store.md, R91, R92, R94 and R95). Each form is
`loadInto` or `storeFrom` at its effective address, and how these two complete is said once, for every form. -/

namespace Sys2Proof.Machine

/-! ### How the shared operations complete -/

/-- A form that loads from a readable word completes, and leaves what a LOAD leaves (R90, R91). -/
theorem load_form_completes {i : Instr} {s : State} {len : Nat} {rd : RegIdx} {ea v : Word} {op : BitVec 5} {fmt : Format}
    (hread : s.Reads ea v) (hexec : exec i s = s.loadInto len rd ea) (hform : HasForm i op fmt len) :
    ∃ t, exec i s = .next t ∧ HasForm i op fmt len ∧ LoadEffect s t len rd v :=
  ⟨_, hexec.trans (State.readData_of_reads hread _), hform, s.loaded_effect len rd v⟩

/-- A form that stores to a word of the launch memory completes, and leaves what a STORE leaves (R90, R94). -/
theorem store_form_completes {i : Instr} {s : State} {len : Nat} {rd : RegIdx} {ea : Word} {op : BitVec 5} {fmt : Format}
    (hstorage : s.hasStorage ea = true) (hexec : exec i s = s.storeFrom len rd ea) (hform : HasForm i op fmt len) :
    ∃ t, exec i s = .next t ∧ HasForm i op fmt len ∧ StoreEffect s t ea (s.reg rd) s.sp (s.npc len) :=
  ⟨_, hexec.trans (State.writeData_of hstorage _ _), hform, s.stored_effect len ea (s.reg rd)⟩

/-! ### The effective address of the short forms -/

/-- The short address is the base plus the signed immediate, as an integer modulo 65536 (R92). -/
theorem State.eaShort_toNat (s : State) (rs : RegIdx) (k : BitVec 5) :
    ((s.eaShort rs k).toNat : Int) = ((s.reg rs).toNat + k.toInt) % 65536 := by
  have hsext : (sext16 k).toNat = (k.toInt % 65536).toNat := BitVec.toNat_ofInt ..
  rw [State.eaShort, BitVec.toNat_add, hsext]
  omega

/-- The only word whose value is the base plus the signed immediate modulo 65536 is the short address (R92). -/
theorem State.eaShort_eq_of_toNat {s : State} {rs : RegIdx} {k : BitVec 5} {ea : Word}
    (h : (ea.toNat : Int) = ((s.reg rs).toNat + k.toInt) % 65536) : s.eaShort rs k = ea :=
  BitVec.eq_of_toNat_eq (Int.ofNat_inj.1 ((s.eaShort_toNat rs k).trans h.symm))

/-! ### LOAD and STORE -/

/-- Settles O15: LOAD d, t(s) is `loadInto` at the sum of the two registers. -/
theorem loadRegisterResult : Obligations.LoadRegisterResult := fun _ _ _ _ _ hread =>
  load_form_completes hread rfl ⟨rfl, rfl, rfl⟩

/-- Settles O16: LOAD d, simm5(s) is `loadInto` at the short address, which is the word the statement describes. -/
theorem loadShortResult : Obligations.LoadShortResult := by
  intro d a k ea v s hea hread
  obtain rfl := State.eaShort_eq_of_toNat hea
  exact load_form_completes hread rfl ⟨rfl, rfl, rfl⟩

/-- Settles O19: STORE d, t(s) is `storeFrom` at the sum of the two registers. -/
theorem storeRegisterResult : Obligations.StoreRegisterResult := fun _ _ _ _ hstorage =>
  store_form_completes hstorage rfl ⟨rfl, rfl, rfl⟩

/-- Settles O20: STORE d, simm5(s) is `storeFrom` at the short address. -/
theorem storeShortResult : Obligations.StoreShortResult := fun _ _ _ _ hstorage =>
  store_form_completes hstorage rfl ⟨rfl, rfl, rfl⟩

end Sys2Proof.Machine
end

section
/-! PROOFS. The statements about CALL s and RETURN (43_call_return.md, R106 and R109). CALL s is `callTo` of its register,
which pushes and transfers; RETURN only moves sp and pc. -/

namespace Sys2Proof.Machine

/-- Moving sp and pc is the whole effect of a transfer. -/
theorem State.transferred_effect (s : State) (sp pc : Word) : TransferEffect s ((s.setSp sp).setPc pc) sp pc where
  pc := rfl
  sp := rfl
  regs _ := rfl
  flags := rfl
  ie := rfl
  memory _ := rfl
  written := rfl
  environment := ⟨rfl, rfl, rfl, rfl, rfl, rfl⟩

/-- Settles O26: CALL s is `callTo` of the register, which pushes the address after the one-word CALL and goes there. -/
theorem callRegisterResult : Obligations.CallRegisterResult := fun a s hstorage =>
  ⟨_, State.callTo_of hstorage 1 (s.reg a), ⟨rfl, rfl, rfl⟩, s.pushed_effect (s.npc 1) (s.reg a)⟩

/-- Settles O29: RETURN at a readable stack word moves sp up by one and pc to that word. -/
theorem returnResult : Obligations.ReturnResult := fun v s hread =>
  ⟨_, exec_ret_of_reads hread, ⟨rfl, rfl, rfl⟩, rfl, s.transferred_effect (s.sp + 1#16) v⟩

end Sys2Proof.Machine
end

section
/-! PROOFS. The statement about SFA (44_system.md, R115), which is nothing but `pc` going past its one word. -/

namespace Sys2Proof.Machine

/-- Going past an instruction is the transfer to the address after it, with sp where it was (R17). -/
theorem State.advance_effect (s : State) (len : Nat) : TransferEffect s (s.advance len) s.sp (s.npc len) :=
  s.transferred_effect s.sp (s.npc len)

/-- Settles O33: SFA is `advance` by its one word. -/
theorem sfaResult : Obligations.SfaResult := fun s =>
  ⟨s.advance 1, rfl, ⟨rfl, rfl, rfl⟩, rfl, s.advance_effect 1⟩

end Sys2Proof.Machine
end

section
/-! PROOFS. The statements about the jumps (45_jumps.md, R121 to R130). Every jump form answers the state with `pc` set to
its target, and what that changes is said once; the forms differ in the target only. -/

namespace Sys2Proof.Machine

/-! ### What a jump leaves, and where the relative ones go -/

/-- Setting pc is the transfer to that address, with sp where it was. -/
theorem State.setPc_effect (s : State) (target : Word) : TransferEffect s (s.setPc target) s.sp target :=
  s.transferred_effect s.sp target

/-- A form that completes by setting pc completes as the rules of the jumps say (R122 to R130). -/
theorem jump_form_completes {i : Instr} {s : State} {target : Word} {op : BitVec 5} {fmt : Format} {len : Nat}
    (hexec : exec i s = .next (s.setPc target)) (hform : HasForm i op fmt len) :
    ∃ t, exec i s = .next t ∧ HasForm i op fmt len ∧ TransferEffect s t s.sp target :=
  ⟨_, hexec, hform, s.setPc_effect target⟩

/-- A form that sets pc to `condTarget` of its test goes to the relative target if the test holds, else to the address
after it (R120, R124 to R130). -/
theorem conditional_jump_completes {i : Instr} {s : State} {taken : Bool} {k : BitVec 11} {op : BitVec 5}
    (hexec : exec i s = .next (s.setPc (s.condTarget taken k))) (hform : HasForm i op .type4 1) :
    ∃ t, exec i s = .next t ∧ HasForm i op .type4 1 ∧
      TransferEffect s t s.sp (if taken then s.pc + 1#16 + k.signExtend 16 else s.pc + 1#16) :=
  jump_form_completes hexec hform

/-- Adding a sign-extended immediate to a word adds its signed value, modulo 65536 (R59). -/
theorem add_sext16_toNat {len : Nat} (w : Word) (k : BitVec len) :
    ((w + sext16 k).toNat : Int) = (w.toNat + k.toInt) % 65536 := by
  have hsext : (sext16 k).toNat = (k.toInt % 65536).toNat := BitVec.toNat_ofInt ..
  rw [BitVec.toNat_add, hsext]
  omega

/-- The relative target is the address after the one-word jump plus the signed immediate, as an integer modulo 65536
(R120, R121). -/
theorem State.relTarget_toNat (s : State) (k : BitVec 11) :
    ((s.relTarget k).toNat : Int) = (s.pc.toNat + 1 + k.toInt) % 65536 := by
  have hnpc : (s.npc 1).toNat = (s.pc.toNat + 1) % 65536 := BitVec.toNat_add ..
  rw [State.relTarget, add_sext16_toNat, hnpc]
  omega

/-! ### JUMPR, JUMPA and the conditional jumps -/

/-- Settles O35: JUMPR sets pc to the relative target, which is the integer the statement describes. -/
theorem relativeJumpResult : Obligations.RelativeJumpResult := fun k s =>
  ⟨_, rfl, ⟨rfl, rfl, rfl⟩, s.relTarget_toNat k, s.setPc_effect (s.relTarget k)⟩

/-- Settles O36: both forms of JUMPA set pc to their operand. -/
theorem absoluteJumpResults : Obligations.AbsoluteJumpResults := fun _ _ _ =>
  ⟨jump_form_completes rfl ⟨rfl, rfl, rfl⟩, jump_form_completes rfl ⟨rfl, rfl, rfl⟩⟩

/-- Settles O37: each of the seven forms sets pc to `condTarget` of its own flag test. -/
theorem conditionalJumpResults : Obligations.ConditionalJumpResults := by
  intro k s i op taken hrow
  simp only [List.mem_cons, Prod.mk.injEq, List.not_mem_nil, or_false] at hrow
  rcases hrow with ⟨rfl, rfl, rfl⟩ | ⟨rfl, rfl, rfl⟩ | ⟨rfl, rfl, rfl⟩ | ⟨rfl, rfl, rfl⟩ | ⟨rfl, rfl, rfl⟩ |
    ⟨rfl, rfl, rfl⟩ | ⟨rfl, rfl, rfl⟩ <;> exact conditional_jump_completes rfl ⟨rfl, rfl, rfl⟩

end Sys2Proof.Machine
end

section
/-! PROOFS. The statements about the encoding (30_encoding.md, R46 to R63). A first word is an opcode over 11 bits, and the
fields of those bits are read off each layout once; the decoder is then followed through its own cases. -/

namespace Sys2Proof

/-! ### Words of an opcode and 11 bits -/

/-- A first word: an opcode over 11 bits (R48). -/
def wordOf (op : BitVec 5) (x : BitVec 11) : Word := op ++ x

theorem Instr.firstWord_eq_wordOf (i : Instr) : i.firstWord = wordOf i.opcode i.operandBits := rfl

@[simp] theorem opcodeOf_wordOf (op : BitVec 5) (x : BitVec 11) : opcodeOf (wordOf op x) = op :=
  Laws.EncodeShape.opcodeOf_append op x

/-- A field below the opcode is a field of the 11 bits. -/
theorem field_wordOf (op : BitVec 5) (x : BitVec 11) {lo len : Nat} (h : lo + len ≤ 11) :
    field (wordOf op x) lo len = x.extractLsb' lo len := BitVec.extractLsb'_append_eq_of_add_le h

@[simp] theorem imm11Of_wordOf (op : BitVec 5) (k : BitVec 11) : imm11Of (wordOf op k) = k :=
  (field_wordOf op k (by decide)).trans BitVec.extractLsb'_eq_self

/-! What each field reads from a word put together from fields: Type1 and Type6 have the layout `d ++ s ++ t ++ mode`, Type2,
Type3 and PUSH the layout `d ++ s ++ imm5`, POP and STI have two fields (R49 to R55). -/

section
variable (op : BitVec 5) (d s t : RegIdx) (m : BitVec 2) (k : BitVec 5)

@[simp] theorem modeOf_type1 : modeOf (wordOf op (d ++ s ++ t ++ m)) = m := by
  rw [modeOf, field_wordOf _ _ (by decide)]
  exact BitVec.extractLsb'_append_eq_right

@[simp] theorem tOf_type1 : tOf (wordOf op (d ++ s ++ t ++ m)) = t := by
  rw [tOf, field_wordOf _ _ (by decide), BitVec.extractLsb'_append_eq_of_le (by decide)]
  exact BitVec.extractLsb'_append_eq_right

@[simp] theorem sOf_type1 : sOf (wordOf op (d ++ s ++ t ++ m)) = s := by
  rw [sOf, field_wordOf _ _ (by decide), BitVec.extractLsb'_append_eq_of_le (by decide),
    BitVec.extractLsb'_append_eq_of_le (by decide)]
  exact BitVec.extractLsb'_append_eq_right

@[simp] theorem dOf_type1 : dOf (wordOf op (d ++ s ++ t ++ m)) = d := by
  rw [dOf, field_wordOf _ _ (by decide), BitVec.extractLsb'_append_eq_of_le (by decide),
    BitVec.extractLsb'_append_eq_of_le (by decide)]
  exact BitVec.extractLsb'_append_eq_left

@[simp] theorem imm5Of_type2 : imm5Of (wordOf op (d ++ s ++ k)) = k := by
  rw [imm5Of, field_wordOf _ _ (by decide)]
  exact BitVec.extractLsb'_append_eq_right

@[simp] theorem sOf_type2 : sOf (wordOf op (d ++ s ++ k)) = s := by
  rw [sOf, field_wordOf _ _ (by decide), BitVec.extractLsb'_append_eq_of_le (by decide)]
  exact BitVec.extractLsb'_append_eq_right

@[simp] theorem dOf_type2 : dOf (wordOf op (d ++ s ++ k)) = d := by
  rw [dOf, field_wordOf _ _ (by decide), BitVec.extractLsb'_append_eq_of_le (by decide)]
  exact BitVec.extractLsb'_append_eq_left

@[simp] theorem dOf_type7 (x : BitVec 8) : dOf (wordOf op (d ++ x)) = d :=
  (field_wordOf op (d ++ x) (by decide)).trans BitVec.extractLsb'_append_eq_left

@[simp] theorem low8_type7 (x : BitVec 8) : field (wordOf op (d ++ x)) 0 8 = x :=
  (field_wordOf op (d ++ x) (by decide)).trans BitVec.extractLsb'_append_eq_right

@[simp] theorem high10_type8 (x : BitVec 10) (a : BitVec 1) : field (wordOf op (x ++ a)) 1 10 = x :=
  (field_wordOf op (x ++ a) (by decide)).trans BitVec.extractLsb'_append_eq_left

@[simp] theorem low1_type8 (x : BitVec 10) (a : BitVec 1) : field (wordOf op (x ++ a)) 0 1 = a :=
  (field_wordOf op (x ++ a) (by decide)).trans BitVec.extractLsb'_append_eq_right

end

/-! And back: in every layout the fields of a word, put together, are the word. -/

/-- Neighbouring fields make one field. -/
theorem field_append_field (w : Word) {lo len lo' len' : Nat} (h : lo' = lo + len) :
    field w lo' len' ++ field w lo len = field w lo (len' + len) :=
  BitVec.extractLsb'_append_extractLsb'_eq_extractLsb' h

theorem wordOf_type4 (w : Word) : wordOf (opcodeOf w) (imm11Of w) = w :=
  (field_append_field w rfl).trans BitVec.extractLsb'_eq_self

theorem imm11Of_type1 (w : Word) : dOf w ++ sOf w ++ tOf w ++ modeOf w = imm11Of w := by
  simp only [dOf, sOf, tOf, modeOf]
  rw [field_append_field w (by rfl), field_append_field w (by rfl), field_append_field w (by rfl)]; rfl

theorem imm11Of_type2 (w : Word) : dOf w ++ sOf w ++ imm5Of w = imm11Of w := by
  simp only [dOf, sOf, imm5Of]
  rw [field_append_field w (by rfl), field_append_field w (by rfl)]; rfl

theorem imm11Of_type7 (w : Word) : dOf w ++ field w 0 8 = imm11Of w := field_append_field w rfl

theorem imm11Of_type8 (w : Word) : field w 1 10 ++ field w 0 1 = imm11Of w := field_append_field w rfl

/-! ### What the first word of an instruction decodes to -/

/-- What a first word selects is the instruction `i`, with `second` as the second word it takes, if any (R46). -/
def Head.Gives (h : Head) (i : Instr) (second : Option Word) : Prop :=
  match h, second with
  | .done j, none => j = i
  | .needs f, some imm => f imm = i
  | _, _ => False

/-- The first word of every form selects that form, which then takes the form's own second word. -/
theorem decodeHead_firstWord (i : Instr) : ∃ h, decodeHead i.firstWord = .ok h ∧ h.Gives i i.secondWord := by
  simp only [Instr.firstWord_eq_wordOf, decodeHead, opcodeOf_wordOf]
  cases i with
  | addReg | subReg | andReg | orReg | xorReg | loadReg | storeReg | notReg =>
    exact ⟨.done _, by simp [Instr.opcode, Instr.operandBits, type1, ifZero], rfl⟩
  | loadLong | storeLong | addLong | andLong | orLong | xorLong =>
    exact ⟨.needs _, by simp [Instr.opcode, Instr.operandBits, type1, ifZero], rfl⟩
  | callReg | jumpaReg => exact ⟨.done _, by simp [Instr.opcode, Instr.operandBits, type6, ifZero], rfl⟩
  | callLong | jumpaLong =>
    exact ⟨.needs _, by simp [Instr.opcode, Instr.operandBits, type6, ifZero, wordOf, modeOf, dOf, sOf, tOf, field], rfl⟩
  | ret | reti | sfa => exact ⟨.done _, by simp [Instr.opcode, Instr.operandBits, type5, ifZero], rfl⟩
  | addShort | loadShort | storeShort | lsl | lsr | push | pop | sti | callShort | jumpr | jumpv | jumpc | jumpnc | jumpn
  | jumpnn | jumpz | jumpnz => exact ⟨.done _, by simp [Instr.opcode, Instr.operandBits, ifZero], rfl⟩

/-! ### What decodes is the encoding -/

/-- Whatever instruction the answer `r` gives has `w` as its first word, and as its second the word it took. -/
def Faithful (w : Word) (r : Except Unlisted Head) : Prop :=
  ∀ h, r = .ok h → ∀ i second, h.Gives i second → i.firstWord = w ∧ i.secondWord = second

/-- A word is the first word of an instruction whose opcode and operand bits it shows. -/
theorem firstWord_of_fields {i : Instr} {w : Word} (hop : i.opcode = opcodeOf w) (hbits : i.operandBits = imm11Of w) :
    i.firstWord = w := by
  rw [Instr.firstWord_eq_wordOf, hop, hbits, wordOf_type4]

theorem faithful_error (w : Word) (why : Unlisted) : Faithful w (.error why) := fun _ hr => nomatch hr

theorem faithful_done {w : Word} {j : Instr} (hsecond : j.secondWord = none) (hop : j.opcode = opcodeOf w)
    (hbits : j.operandBits = imm11Of w) : Faithful w (.ok (.done j)) := by
  rintro _ ⟨⟩ i (_ | imm) hgives
  · obtain rfl : j = i := hgives
    exact ⟨firstWord_of_fields hop hbits, hsecond⟩
  · exact hgives.elim

theorem faithful_needs {w : Word} {f : Word → Instr} (hsecond : ∀ imm, (f imm).secondWord = some imm)
    (hop : ∀ imm, (f imm).opcode = opcodeOf w) (hbits : ∀ imm, (f imm).operandBits = imm11Of w) :
    Faithful w (.ok (.needs f)) := by
  rintro _ ⟨⟩ i (_ | imm) hgives
  · exact hgives.elim
  · obtain rfl : f imm = i := hgives
    exact ⟨firstWord_of_fields (hop imm) (hbits imm), hsecond imm⟩

theorem faithful_ifZero {w : Word} {unused : Bool} {h : Head} (hzero : unused = true → Faithful w (.ok h)) :
    Faithful w (ifZero unused h) := by
  cases unused
  · exact faithful_error w _
  · exact hzero rfl

theorem faithful_type1 {w : Word} {mode : BitVec 2} {reg : RegIdx → RegIdx → RegIdx → Instr}
    {long : RegIdx → RegIdx → Word → Instr}
    (hreg : ∀ d s t, (reg d s t).secondWord = none ∧ (reg d s t).opcode = opcodeOf w ∧
      (reg d s t).operandBits = d ++ s ++ t ++ 0b00#2)
    (hlong : ∀ d s imm, (long d s imm).secondWord = some imm ∧ (long d s imm).opcode = opcodeOf w ∧
      (long d s imm).operandBits = d ++ s ++ 0#3 ++ mode) :
    Faithful w (type1 w mode reg long) := by
  unfold type1
  split
  · next hm =>
    obtain ⟨hsecond, hop, hbits⟩ := hreg (dOf w) (sOf w) (tOf w)
    exact faithful_done hsecond hop (by rw [hbits, ← imm11Of_type1, hm]; rfl)
  split
  · next hm =>
    choose hsecond hop hbits using hlong (dOf w) (sOf w)
    refine faithful_ifZero fun ht => faithful_needs hsecond hop fun imm => ?_
    rw [hbits, ← imm11Of_type1, hm, of_decide_eq_true ht]; rfl
  · exact faithful_error w _

theorem faithful_type6 {w : Word} {reg : RegIdx → Instr} {long : Word → Instr}
    (hreg : ∀ s, (reg s).secondWord = none ∧ (reg s).opcode = opcodeOf w ∧
      (reg s).operandBits = 0#3 ++ s ++ 0#3 ++ 0b00#2)
    (hlong : ∀ imm, (long imm).secondWord = some imm ∧ (long imm).opcode = opcodeOf w ∧
      (long imm).operandBits = 0#3 ++ 0#3 ++ 0#3 ++ 0b01#2) :
    Faithful w (type6 w reg long) := by
  unfold type6
  split
  · next hm =>
    refine faithful_ifZero fun hz => ?_
    obtain ⟨hd, ht⟩ := of_decide_eq_true hz
    obtain ⟨hsecond, hop, hbits⟩ := hreg (sOf w)
    exact faithful_done hsecond hop (by rw [hbits, ← imm11Of_type1, hm, hd, ht]; rfl)
  split
  · next hm =>
    refine faithful_ifZero fun hz => ?_
    obtain ⟨hd, hs, ht⟩ := of_decide_eq_true hz
    choose hsecond hop hbits using hlong
    exact faithful_needs hsecond hop fun imm => by rw [hbits, ← imm11Of_type1, hm, hd, hs, ht]; rfl
  · exact faithful_error w _

theorem faithful_type5 {w : Word} {i : Instr} (hsecond : i.secondWord = none) (hop : i.opcode = opcodeOf w)
    (hbits : i.operandBits = 0#11) : Faithful w (type5 w i) :=
  faithful_ifZero fun hz => faithful_done hsecond hop (hbits.trans (of_decide_eq_true hz).symm)

/-- The decoder ignores no bit: each of its branches keeps the word, with the fields it tests for 0 put back as zeros. -/
theorem faithful_decodeHead (w : Word) : Faithful w (decodeHead w) := by
  unfold decodeHead
  split
  -- NOT
  case h_1 hop =>
    split
    · next hm =>
      refine faithful_ifZero fun hz => faithful_done rfl hop.symm ?_
      rw [← imm11Of_type1, hm, of_decide_eq_true hz]; rfl
    · exact faithful_error w _
  -- SUB
  case h_2 hop =>
    split
    · next hm => exact faithful_done rfl hop.symm (by rw [← imm11Of_type1, hm]; rfl)
    · exact faithful_error w _
  -- LOAD, STORE, XOR, ADD, OR, AND
  case h_3 hop | h_4 hop | h_5 hop | h_6 hop | h_7 hop | h_8 hop =>
    exact faithful_type1 (fun _ _ _ => ⟨rfl, hop.symm, rfl⟩) (fun _ _ _ => ⟨rfl, hop.symm, rfl⟩)
  -- LSR, LSL
  case h_9 hop | h_10 hop =>
    refine faithful_ifZero fun hz => faithful_done rfl hop.symm ?_
    rw [← imm11Of_type2, of_decide_eq_true hz]; rfl
  -- POP
  case h_11 hop =>
    refine faithful_ifZero fun hz => faithful_done rfl hop.symm ?_
    rw [← imm11Of_type7, of_decide_eq_true hz]; rfl
  -- PUSH
  case h_12 hop =>
    refine faithful_ifZero fun hz => faithful_done rfl hop.symm ?_
    obtain ⟨hd, hk⟩ := of_decide_eq_true hz
    rw [← imm11Of_type2, hd, hk]; rfl
  -- the forms with simm5
  case h_13 hop | h_14 hop | h_15 hop => exact faithful_done rfl hop.symm (imm11Of_type2 w)
  -- JUMPA, CALL
  case h_16 hop | h_17 hop => exact faithful_type6 (fun _ => ⟨rfl, hop.symm, rfl⟩) (fun _ => ⟨rfl, hop.symm, rfl⟩)
  -- STI
  case h_18 hop =>
    refine faithful_ifZero fun hz => faithful_done rfl hop.symm ?_
    rw [← imm11Of_type8, of_decide_eq_true hz]; rfl
  -- RETURN, RETI, SFA
  case h_20 hop | h_21 hop | h_22 hop => exact faithful_type5 rfl hop.symm rfl
  -- the forms with simm11
  case h_19 hop | h_23 hop | h_24 hop | h_25 hop | h_26 hop | h_27 hop | h_28 hop | h_29 hop | h_30 hop =>
    exact faithful_done rfl hop.symm rfl
  case h_31 => exact faithful_error w _

/-! ### Lists of words -/

/-- A list of words decodes exactly when its first word selects something that the instruction, with the word after it where
it takes one, comes from. -/
theorem decode_ok_iff {ws rest : List Word} {i : Instr} : decode ws = .ok (i, rest) ↔
    ∃ w h second, decodeHead w = .ok h ∧ h.Gives i second ∧ ws = w :: second.toList ++ rest := by
  constructor
  · intro hd
    rcases ws with _ | ⟨w, ws⟩
    · cases hd
    rcases hh : decodeHead w with why | (j | f) <;> simp only [decode, hh] at hd
    · cases hd
    · cases hd
      exact ⟨w, _, none, hh, rfl, rfl⟩
    · rcases ws with _ | ⟨imm, ws⟩ <;> cases hd
      exact ⟨w, _, some imm, hh, rfl, rfl⟩
  · rintro ⟨w, j | f, _ | imm, hh, hgives, rfl⟩
    · obtain rfl : j = i := hgives
      simp [decode, hh]
    · exact hgives.elim
    · exact hgives.elim
    · obtain rfl : f imm = i := hgives
      simp [decode, hh]

/-- Settles O51: the first word of an instruction selects it, and takes its second word. -/
theorem decodeEncode : Obligations.DecodeEncode := fun i _ => by
  obtain ⟨h, hh, hgives⟩ := decodeHead_firstWord i
  exact decode_ok_iff.2 ⟨i.firstWord, h, i.secondWord, hh, hgives, rfl⟩

/-- Settles O52: the decoder's answer on the first word is faithful, and the second word is the one it took. -/
theorem encodeDecode : Obligations.EncodeDecode := fun ws rest i hd => by
  obtain ⟨w, h, second, hh, hgives, rfl⟩ := decode_ok_iff.1 hd
  obtain ⟨rfl, rfl⟩ := faithful_decodeHead w h hh i second hgives
  rfl

/-- Settles O55: eight of the ten are encodings, two words select no form and one has unused bits. -/
theorem sampleWordsDecode : Obligations.SampleWordsDecode :=
  ⟨decodeEncode (.addReg 1 2 3) [], decodeEncode (.loadLong 1 2 0x8000#16) [], decodeEncode (.storeShort 7 7 0x1F#5) [],
    decodeEncode (.callShort 0x6FF#11) [], decodeEncode .reti [], decodeEncode (.push 3) [], decodeEncode (.jumpnz 0x7FD#11) [],
    rfl, rfl, rfl⟩

/-! ### Why a first word is refused -/

theorem ifZero_error {unused : Bool} {h : Head} {why : Unlisted} :
    ifZero unused h = .error why ↔ unused = false ∧ .unusedBits = why := by
  cases unused <;> simp [ifZero]

theorem type1_error {w : Word} {mode : BitVec 2} {reg : RegIdx → RegIdx → RegIdx → Instr}
    {long : RegIdx → RegIdx → Word → Instr} {why : Unlisted} (hwhy : .unusedBits ≠ why) :
    type1 w mode reg long = .error why ↔ modeOf w ≠ 0#2 ∧ modeOf w ≠ mode ∧ .mode = why := by
  unfold type1
  split
  · next hm => simp [hm]
  split
  · next hm => simp [ifZero_error, hm, hwhy]
  · next h0 hm => simp [show ¬modeOf w = 0#2 from h0, hm]

theorem type6_error {w : Word} {reg : RegIdx → Instr} {long : Word → Instr} {why : Unlisted} (hwhy : .unusedBits ≠ why) :
    type6 w reg long = .error why ↔ modeOf w ≠ 0#2 ∧ modeOf w ≠ 1#2 ∧ .mode = why := by
  unfold type6
  split
  · next hm => simp [ifZero_error, hm, hwhy]
  split
  · next hm => simp [ifZero_error, hm, hwhy]
  · next h0 hm => simp [show ¬modeOf w = 0#2 from h0, show ¬modeOf w = 1#2 from hm]

/-- Settles O54: each opcode of the decoder refuses by its own tests; the two it does not list are left over. -/
theorem refusalReasons : Obligations.RefusalReasons := by
  intro w
  unfold decodeHead
  split
  case h_1 hop | h_2 hop =>
    split
    · next hm => simp [hop, hm, ifZero_error]
    · next hm => simp [hop, show ¬modeOf w = 0#2 from hm]
  case h_3 hop | h_4 hop | h_5 hop | h_6 hop | h_7 hop | h_8 hop => simp [hop, type1_error]
  case h_16 hop | h_17 hop => simp [hop, type6_error]
  case h_9 hop | h_10 hop | h_11 hop | h_12 hop | h_18 hop | h_20 hop | h_21 hop | h_22 hop =>
    simp [hop, type5, ifZero_error]
  case h_13 hop | h_14 hop | h_15 hop | h_19 hop | h_23 hop | h_24 hop | h_25 hop | h_26 hop | h_27 hop | h_28 hop | h_29 hop
      | h_30 hop => simp [hop]
  case h_31 =>
    have unassigned : opcodeOf w = 12#5 ∨ opcodeOf w = 23#5 := by
      simp only [imp_false] at *
      bv_omega
    rcases unassigned with hop | hop <;> simp [hop]

/-! ### The table of match, mask and length -/

theorem field_and (w v : Word) (lo len : Nat) : field (w &&& v) lo len = field w lo len &&& field v lo len :=
  BitVec.extractLsb'_and

theorem word_eq_iff_fields {w v : Word} : w = v ↔
    opcodeOf w = opcodeOf v ∧ dOf w = dOf v ∧ sOf w = sOf v ∧ tOf w = tOf v ∧ modeOf w = modeOf v := by
  constructor
  · rintro rfl
    exact ⟨rfl, rfl, rfl, rfl, rfl⟩
  · rintro ⟨hop, hd, hs, ht, hm⟩
    rw [← wordOf_type4 w, ← wordOf_type4 v, ← imm11Of_type1, ← imm11Of_type1, hop, hd, hs, ht, hm]

/-- The bits under the opcode meet a row's match and mask. -/
def Row.matchesBelow (w : Word) (r : Row) : Bool := decide
  (dOf w &&& dOf r.mask = dOf r.pattern ∧ sOf w &&& sOf r.mask = sOf r.pattern ∧ tOf w &&& tOf r.mask = tOf r.pattern ∧
    modeOf w &&& modeOf r.mask = modeOf r.pattern)

/-- The rows of the table with an opcode. -/
def rowsOf (op : BitVec 5) : List Row := opcodeRows.filter (fun r => opcodeOf r.pattern = op)

/-- Every row tests the whole opcode. -/
theorem opcode_of_mask : ∀ r ∈ opcodeRows, opcodeOf r.mask = BitVec.allOnes 5 := by decide

/-- The rows a word selects are those of its opcode that match the bits under it. -/
theorem selected_rows (w : Word) :
    opcodeRows.filter (fun r => r.selectedBy w) = (rowsOf (opcodeOf w)).filter (Row.matchesBelow w) := by
  rw [rowsOf, List.filter_filter]
  refine List.filter_congr fun r hr => ?_
  have key : w &&& r.mask = r.pattern ↔ _ := word_eq_iff_fields
  rw [Row.selectedBy, Row.matchesBelow, ← Bool.decide_and, decide_eq_decide, key]
  simp only [opcodeOf, dOf, sOf, tOf, modeOf, field_and]
  rw [← opcodeOf, ← opcodeOf, ← opcodeOf, opcode_of_mask r hr, BitVec.and_allOnes, and_comm, eq_comm (a := opcodeOf w)]

/-- The lengths of the rows among `rows` that match the bits under the opcode. -/
def rowLengths (w : Word) (rows : List Row) : List Nat := (rows.filter (Row.matchesBelow w)).map Row.length

@[simp] theorem rowLengths_nil (w : Word) : rowLengths w [] = [] := rfl

@[simp] theorem rowLengths_cons (w p m : Word) (l : Nat) (rows : List Row) : rowLengths w (⟨p, m, l⟩ :: rows) =
    if dOf w &&& dOf m = dOf p ∧ sOf w &&& sOf m = sOf p ∧ tOf w &&& tOf m = tOf p ∧ modeOf w &&& modeOf m = modeOf p
    then l :: rowLengths w rows else rowLengths w rows := by
  simp [rowLengths, List.filter_cons, Row.matchesBelow, apply_ite (List.map Row.length)]

theorem lengths_of_selected {w : Word} {op : BitVec 5} {rows : List Row} (hop : opcodeOf w = op) (hrows : rowsOf op = rows) :
    (opcodeRows.filter (fun r => r.selectedBy w)).map Row.length = rowLengths w rows := by
  rw [selected_rows, hop, hrows, rowLengths]

/-- The lengths of the forms an answer of the decoder selects: one length, or none for a refusal. -/
def lengthsOf (r : Except Unlisted Head) : List Nat :=
  match r with
  | .error _ => []
  | .ok (.done _) => [1]
  | .ok (.needs _) => [2]

theorem lengthsOf_ifZero (unused : Bool) (h : Head) :
    lengthsOf (ifZero unused h) = if unused then lengthsOf (.ok h) else [] := by
  cases unused <;> rfl

@[simp] theorem lengthsOf_error (why : Unlisted) : lengthsOf (.error why) = [] := rfl
@[simp] theorem lengthsOf_done (i : Instr) : lengthsOf (.ok (.done i)) = [1] := rfl
@[simp] theorem lengthsOf_needs (f : Word → Instr) : lengthsOf (.ok (.needs f)) = [2] := rfl

theorem lengthsOf_type1 (w : Word) (mode : BitVec 2) (reg : RegIdx → RegIdx → RegIdx → Instr)
    (long : RegIdx → RegIdx → Word → Instr) : lengthsOf (type1 w mode reg long) =
      if modeOf w = 0#2 then [1] else if tOf w = 0#3 ∧ modeOf w = mode then [2] else [] := by
  by_cases ht : tOf w = 0#3 <;> simp [type1, apply_ite lengthsOf, lengthsOf_ifZero, ht]

theorem lengthsOf_type6 (w : Word) (reg : RegIdx → Instr) (long : Word → Instr) : lengthsOf (type6 w reg long) =
      if modeOf w = 0#2 then if dOf w = 0#3 ∧ tOf w = 0#3 then [1] else []
      else if modeOf w = 1#2 then if dOf w = 0#3 ∧ sOf w = 0#3 ∧ tOf w = 0#3 then [2] else [] else [] := by
  simp [type6, apply_ite lengthsOf, lengthsOf_ifZero]

/-- A field is zero exactly when both its parts are. -/
theorem field_eq_zero_iff (w : Word) (lo len len' : Nat) :
    field w lo (len' + len) = 0 ↔ field w (lo + len) len' = 0 ∧ field w lo len = 0 := by
  rw [← field_append_field w rfl]
  constructor
  · intro h
    have hl := congrArg (BitVec.extractLsb' len len') h
    have hr := congrArg (BitVec.extractLsb' 0 len) h
    simpa [BitVec.extractLsb'_append_eq_left, BitVec.extractLsb'_append_eq_right] using And.intro hl hr
  · rintro ⟨hl, hr⟩
    rw [hl, hr]; exact BitVec.zero_append_zero

theorem imm5Of_eq_zero_iff (w : Word) : imm5Of w = 0#5 ↔ tOf w = 0#3 ∧ modeOf w = 0#2 := field_eq_zero_iff w 0 2 3

theorem low8_eq_zero_iff (w : Word) : field w 0 8 = 0#8 ↔ sOf w = 0#3 ∧ tOf w = 0#3 ∧ modeOf w = 0#2 := by
  rw [← imm5Of_eq_zero_iff]
  exact field_eq_zero_iff w 0 5 3

theorem imm11Of_eq_zero_iff (w : Word) :
    imm11Of w = 0#11 ↔ dOf w = 0#3 ∧ sOf w = 0#3 ∧ tOf w = 0#3 ∧ modeOf w = 0#2 := by
  rw [← low8_eq_zero_iff]
  exact field_eq_zero_iff w 0 8 3

/-- The upper bit of the mode field. -/
theorem modeOf_and_two_eq_zero_iff (w : Word) : modeOf w &&& 2#2 = 0#2 ↔ field w 1 1 = 0#1 := by
  have hupper : (modeOf w).extractLsb' 1 1 = field w 1 1 := BitVec.extractLsb'_extractLsb'_of_le (by decide)
  have hmask : ∀ m : BitVec 2, m &&& 2#2 = 0#2 ↔ m.extractLsb' 1 1 = 0#1 := by decide
  rw [hmask, hupper]

theorem high10_eq_zero_iff (w : Word) :
    field w 1 10 = 0#10 ↔ dOf w = 0#3 ∧ sOf w = 0#3 ∧ tOf w = 0#3 ∧ modeOf w &&& 2#2 = 0#2 := by
  have h4 : field w 1 4 = 0#4 ↔ tOf w = 0#3 ∧ field w 1 1 = 0#1 := field_eq_zero_iff w 1 1 3
  have h7 : field w 1 7 = 0#7 ↔ sOf w = 0#3 ∧ field w 1 4 = 0#4 := field_eq_zero_iff w 1 4 3
  rw [modeOf_and_two_eq_zero_iff, ← h4, ← h7]
  exact field_eq_zero_iff w 1 7 3

theorem field_ofNat (n lo len : Nat) : field (BitVec.ofNat 16 n) lo len = BitVec.ofNat len (n % 65536 / 2 ^ lo) := by
  apply BitVec.eq_of_toNat_eq
  simp [field, Nat.shiftRight_eq_div_pow]

@[simp] theorem dOf_ofNat (n : Nat) : dOf (BitVec.ofNat 16 n) = BitVec.ofNat 3 (n % 65536 / 2 ^ 8) := field_ofNat n 8 3
@[simp] theorem sOf_ofNat (n : Nat) : sOf (BitVec.ofNat 16 n) = BitVec.ofNat 3 (n % 65536 / 2 ^ 5) := field_ofNat n 5 3
@[simp] theorem tOf_ofNat (n : Nat) : tOf (BitVec.ofNat 16 n) = BitVec.ofNat 3 (n % 65536 / 2 ^ 2) := field_ofNat n 2 3
@[simp] theorem modeOf_ofNat (n : Nat) : modeOf (BitVec.ofNat 16 n) = BitVec.ofNat 2 (n % 65536 / 2 ^ 0) := field_ofNat n 0 2

@[simp] theorem and_seven (x : RegIdx) : x &&& 7#3 = x := BitVec.and_allOnes
@[simp] theorem and_three (x : BitVec 2) : x &&& 3#2 = x := BitVec.and_allOnes

/-- Settles O53: for each opcode of the decoder the table has one or two rows, and their tests are the decoder's. -/
theorem decoderAgreesWithTable : Obligations.DecoderAgreesWithTable := by
  intro w
  suffices h : (opcodeRows.filter (fun r => r.selectedBy w)).map Row.length = lengthsOf (decodeHead w) from h
  unfold decodeHead
  split
  case h_1 hop | h_2 hop =>
    refine (lengths_of_selected hop (rows := [_]) rfl).trans ?_
    by_cases hm : modeOf w = 0#2 <;> simp [hm, lengthsOf_ifZero]
  case h_3 hop | h_4 hop | h_5 hop | h_6 hop | h_7 hop | h_8 hop =>
    refine (lengths_of_selected hop (rows := [_, _]) rfl).trans ?_
    by_cases hm : modeOf w = 0#2 <;> simp [lengthsOf_type1, hm]
  case h_16 hop | h_17 hop =>
    refine (lengths_of_selected hop (rows := [_, _]) rfl).trans ?_
    by_cases hm : modeOf w = 0#2 <;> by_cases hm1 : modeOf w = 1#2 <;> simp [lengthsOf_type6, hm, hm1]
  case h_9 hop | h_10 hop | h_11 hop | h_12 hop | h_18 hop | h_20 hop | h_21 hop | h_22 hop =>
    refine (lengths_of_selected hop (rows := [_]) rfl).trans ?_
    simp [lengthsOf_ifZero, type5, imm5Of_eq_zero_iff, low8_eq_zero_iff, high10_eq_zero_iff, imm11Of_eq_zero_iff]
  case h_13 hop | h_14 hop | h_15 hop | h_19 hop | h_23 hop | h_24 hop | h_25 hop | h_26 hop | h_27 hop | h_28 hop | h_29 hop
      | h_30 hop =>
    refine (lengths_of_selected hop (rows := [_]) rfl).trans ?_
    simp
  case h_31 =>
    have unassigned : opcodeOf w = 12#5 ∨ opcodeOf w = 23#5 := by
      simp only [imp_false] at *
      bv_omega
    rcases unassigned with hop | hop <;> exact lengths_of_selected hop (rows := []) rfl

end Sys2Proof
end

section
/-! PROOFS. The statements about every instruction and every step at once: the invariant (R34, R90, R172) and the tables of
what each form writes (R15, R18, R21, R97). What an instruction can do is `exec_next_cases`; the tables also need to know which
form does it, and that is said once, in `exec_tabulated`. -/

namespace Sys2Proof.Machine

/-! ### The invariant -/

/-- Every instruction that goes on keeps the invariant: it stores at most one word, to the launch memory. -/
theorem exec_keeps_inv {i : Instr} {s t : State} (h : s.Inv) (he : exec i s = .next t) : t.Inv := by
  rcases exec_next_cases he with ⟨_, _, _, _, rfl⟩ | ⟨_, _, _, _, _, rfl⟩ | ⟨_, ea, v, hs, rfl⟩ | ⟨v, _, hs, rfl⟩ |
    ⟨_, _, _, rfl⟩ | ⟨_, _, rfl⟩ | ⟨_, _, _, _, rfl⟩ | ⟨_, rfl⟩ | ⟨_, rfl⟩
  case inr.inr.inl => exact State.inv_congr (State.inv_storeWord h hs v) rfl rfl rfl rfl rfl
  case inr.inr.inr.inl => exact State.inv_congr (State.inv_pushWord h hs v) rfl rfl rfl rfl rfl
  all_goals exact State.inv_congr h rfl rfl rfl rfl rfl

/-- Interrupt entry with both stack words in the launch memory keeps the invariant. -/
theorem State.inv_interruptEntry {s : State} (h : s.Inv) (h1 : s.hasStorage (s.sp - 1#16) = true)
    (h2 : s.hasStorage (s.sp - 1#16 - 1#16) = true) (layout : FlagsLayout) (vector : Word) :
    (s.interruptEntry layout vector).Inv :=
  State.inv_congr (State.inv_pushWord (s := s.pushWord s.pc) (State.inv_pushWord h h1 s.pc) h2 (layout.pack s.flags s.ie))
    rfl rfl rfl rfl rfl

/-- Settles O58: a step is an interrupt entry or an instruction, and both keep the invariant. -/
theorem stepKeepsInvariant : Obligations.StepKeepsInvariant := by
  intro s t h hstep
  rcases step_next_cases hstep with ⟨_, h1, h2, rfl⟩ | ⟨_, i, u, _, hexec, rfl⟩
  · exact State.inv_congr (State.inv_interruptEntry h h1 h2 Config.flagsLayout Config.intVector) rfl rfl rfl rfl rfl
  · exact State.inv_congr (exec_keeps_inv h hexec) rfl rfl rfl rfl rfl

/-- Settles O56: at reset no word holds a value and every set is empty. -/
theorem resetMeetsInvariant : Obligations.ResetMeetsInvariant where
  memory := State.reset_mem_wf
  text := rfl
  excluded := rfl
  written := rfl
  storage _ h := nomatch h
  writtenHold _ h := nomatch h

/-- Settles O57: each value is the one `State.reset` writes out. -/
theorem resetValues : Obligations.ResetValues := by
  refine ⟨fun _ => rfl, fun k => ?_, rfl, rfl, rfl, rfl, rfl, rfl, rfl, rfl, rfl, rfl⟩
  simp [State.reg, State.reset]

/-! ### Words keep holding values -/

/-- A store takes no value away. -/
theorem State.isSome_word?_storeWord {s : State} {k : Word} (h : (s.word? k).isSome = true) (a v : Word) :
    ((s.storeWord a v).word? k).isSome = true := by
  rw [State.word?_storeWord]
  split
  · rfl
  · exact h

/-- A push takes no value away. -/
theorem State.isSome_word?_pushWord {s : State} {k : Word} (h : (s.word? k).isSome = true) (v : Word) :
    ((s.pushWord v).word? k).isSome = true :=
  State.isSome_word?_storeWord (s := s.setSp (s.sp - 1#16)) h _ v

/-- No instruction takes a value away. -/
theorem exec_keeps_values {i : Instr} {s t : State} {k : Word} (h : (s.word? k).isSome = true) (he : exec i s = .next t) :
    (t.word? k).isSome = true := by
  rcases exec_next_cases he with ⟨_, _, _, _, rfl⟩ | ⟨_, _, _, _, _, rfl⟩ | ⟨_, ea, v, _, rfl⟩ | ⟨v, _, _, rfl⟩ |
    ⟨_, _, _, rfl⟩ | ⟨_, _, rfl⟩ | ⟨_, _, _, _, rfl⟩ | ⟨_, rfl⟩ | ⟨_, rfl⟩
  case inr.inr.inl => exact State.isSome_word?_storeWord h ea v
  case inr.inr.inr.inl => exact State.isSome_word?_pushWord h v
  all_goals exact h

/-- Settles O42: neither an instruction nor the two pushes of an interrupt entry take a value away. -/
theorem wordsKeepHoldingValues : Obligations.WordsKeepHoldingValues := by
  intro s t a hstep h
  rcases step_next_cases hstep with ⟨_, _, _, rfl⟩ | ⟨_, i, u, _, hexec, rfl⟩
  · exact State.isSome_word?_pushWord (s := s.pushWord s.pc) (State.isSome_word?_pushWord h s.pc) _
  · exact exec_keeps_values (t := u) h hexec

/-! ### Next states of the forms that `Laws/Step.lean` does not name -/

/-- LSL and LSR end in a next state exactly for a count below 16 (R75, R76). -/
theorem State.shiftInto_next {s t : State} {rd : RegIdx} {count : BitVec 5} {shift : Word → Nat → Word} :
    s.shiftInto rd count shift = .next t ↔ count.toNat < 16 ∧ s.logicInto 1 rd (shift (s.reg rd) count.toNat) = t := by
  unfold State.shiftInto
  split
  · next hc => simp [Nat.not_lt.2 hc]
  · next hc => simp [Nat.not_le.1 hc]

/-- A LOAD ends in a next state only where its word is readable. -/
theorem State.loadInto_next {s t : State} {len : Nat} {rd : RegIdx} {ea : Word} :
    s.loadInto len rd ea = .next t ↔ ∃ v, s.Reads ea v ∧ (s.setReg rd v).advance len = t := by
  simp only [State.loadInto, State.readData_next, Host.Outcome.next.injEq]

/-- POP ends in a next state only where the word at `sp` is readable. -/
theorem exec_pop_next {s t : State} {rd : RegIdx} :
    exec (.pop rd) s = .next t ↔ ∃ v, s.Reads s.sp v ∧ ((s.setSp (s.sp + 1#16)).setReg rd v).advance 1 = t := by
  simp only [exec, execPop, State.popWord_next, Host.Outcome.next.injEq]

/-- RETURN ends in a next state only where the word at `sp` is readable. -/
theorem exec_ret_next {s t : State} :
    exec .ret s = .next t ↔ ∃ v, s.Reads s.sp v ∧ (s.setSp (s.sp + 1#16)).setPc v = t := by
  simp only [exec, execRet, State.popWord_next, Host.Outcome.next.injEq]

/-! ### The tables of what a form writes -/

/-- The instruction `i` took `s` to `t` as the tables say: what it may write is what they give it. -/
structure Tabulated (i : Instr) (s t : State) : Prop where
  regs : ∀ k, writtenReg i ≠ some k → t.reg k = s.reg k
  sp : t.sp = s.sp + spChange i
  flags : writesFlags i = false → t.flags = s.flags
  ie : writesIe i = false → t.ie = s.ie
  words : ∀ a, storedAddress i s ≠ some a → t.word? a = s.word? a
  written : ∀ k, k ∈ t.written ↔ (∃ ea, storedAddress i s = some ea ∧ k = ea.toNat) ∨ k ∈ s.written
  environment : SameEnvironment s t

section
variable {i : Instr} {s t : State}

/-- A form that stores nothing is tabulated if its registers, `sp`, flags and IE are, and memory is as before. -/
theorem tabulated_of_no_store (hstore : storedAddress i s = none) (hmem : t.mem = s.mem) (hwritten : t.written = s.written)
    (henv : SameEnvironment s t) (regs : ∀ k, writtenReg i ≠ some k → t.reg k = s.reg k) (sp : t.sp = s.sp + spChange i)
    (flags : writesFlags i = false → t.flags = s.flags) (ie : writesIe i = false → t.ie = s.ie) : Tabulated i s t where
  regs := regs
  sp := sp
  flags := flags
  ie := ie
  words a _ := congrArg (Memory.readWord · a) hmem
  written k := by simp [hstore, hwritten]
  environment := henv

/-- A form that stores one word is tabulated if it stores it at its address and `sp` is as tabulated. -/
theorem tabulated_of_store {ea v sp pc : Word} (hstore : storedAddress i s = some ea) (h : StoreEffect s t ea v sp pc)
    (hsp : sp = s.sp + spChange i) : Tabulated i s t where
  regs k _ := h.regs k
  sp := h.sp.trans hsp
  flags _ := h.flags
  ie _ := h.ie
  words a ha := h.otherWords a fun e => ha (by rw [hstore, e])
  written k := by simpa [hstore] using h.written k
  environment := h.environment

end

/-- Every instruction that goes on writes what the tables of R15, R18, R21 and R97 give it. -/
theorem exec_tabulated {i : Instr} {s t : State} (h : exec i s = .next t) : Tabulated i s t := by
  have sp_same : s.sp = s.sp + 0#16 := (BitVec.add_zero _).symm
  have other : ∀ {u : State} {d k : RegIdx} {v : Word}, some d ≠ some k → (u.setReg d v).reg k = u.reg k :=
    fun hk => State.reg_setReg_other _ _ _ _ fun e => hk (congrArg some e.symm)
  cases i with
  | lsl d n | lsr d n =>
    unfold exec at h
    obtain ⟨_, rfl⟩ := State.shiftInto_next.1 h
    exact tabulated_of_no_store rfl rfl rfl ⟨rfl, rfl, rfl, rfl, rfl, rfl⟩ (fun _ => other) sp_same nofun fun _ => rfl
  | addReg | addShort | addLong | subReg | andReg | andLong | notReg | orReg | orLong | xorReg | xorLong =>
    cases h
    exact tabulated_of_no_store rfl rfl rfl ⟨rfl, rfl, rfl, rfl, rfl, rfl⟩ (fun _ => other) sp_same nofun fun _ => rfl
  | loadReg | loadShort | loadLong =>
    obtain ⟨v, _, rfl⟩ := State.loadInto_next.1 h
    exact tabulated_of_no_store rfl rfl rfl ⟨rfl, rfl, rfl, rfl, rfl, rfl⟩ (fun _ => other) sp_same (fun _ => rfl) fun _ => rfl
  | storeReg | storeShort | storeLong =>
    obtain ⟨_, rfl⟩ := State.storeFrom_next.1 h
    exact tabulated_of_store rfl (State.stored_effect ..) sp_same
  | push =>
    obtain ⟨_, rfl⟩ := exec_push_next.1 h
    exact tabulated_of_store rfl (State.pushed_effect ..) (BitVec.sub_eq_add_neg ..)
  | callReg | callShort | callLong =>
    obtain ⟨_, rfl⟩ := State.callTo_next.1 h
    exact tabulated_of_store rfl (State.pushed_effect ..) (BitVec.sub_eq_add_neg ..)
  | pop =>
    obtain ⟨v, _, rfl⟩ := exec_pop_next.1 h
    exact tabulated_of_no_store rfl rfl rfl ⟨rfl, rfl, rfl, rfl, rfl, rfl⟩ (fun _ => other) rfl (fun _ => rfl) fun _ => rfl
  | ret =>
    obtain ⟨v, _, rfl⟩ := exec_ret_next.1 h
    exact tabulated_of_no_store rfl rfl rfl ⟨rfl, rfl, rfl, rfl, rfl, rfl⟩ (fun _ _ => rfl) rfl (fun _ => rfl) fun _ => rfl
  | reti =>
    obtain ⟨fw, v, _, _, rfl⟩ := State.interruptReturn_next.1 h
    exact tabulated_of_no_store rfl rfl rfl ⟨rfl, rfl, rfl, rfl, rfl, rfl⟩ (fun _ _ => rfl) (BitVec.add_assoc ..) nofun nofun
  | sti =>
    cases h
    exact tabulated_of_no_store rfl rfl rfl ⟨rfl, rfl, rfl, rfl, rfl, rfl⟩ (fun _ _ => rfl) sp_same (fun _ => rfl) nofun
  | sfa | jumpr | jumpaReg | jumpaLong | jumpv | jumpc | jumpnc | jumpn | jumpnn | jumpz | jumpnz =>
    cases h
    exact tabulated_of_no_store rfl rfl rfl ⟨rfl, rfl, rfl, rfl, rfl, rfl⟩ (fun _ _ => rfl) sp_same (fun _ => rfl) fun _ => rfl

/-- Settles O38: the register clause of `exec_tabulated`. -/
theorem registersWrittenOnlyAsTabulated : Obligations.RegistersWrittenOnlyAsTabulated :=
  fun _ _ _ k hexec => (exec_tabulated hexec).regs k

/-- Settles O39: the `sp` clause of `exec_tabulated`. -/
theorem stackPointerMovesOnlyByStackForms : Obligations.StackPointerMovesOnlyByStackForms :=
  fun _ _ _ hexec => (exec_tabulated hexec).sp

/-- Settles O40: the form that keeps IE at 0 though it writes IE is STI 0. -/
theorem flagsWrittenOnlyAsTabulated : Obligations.FlagsWrittenOnlyAsTabulated := by
  intro i s t hexec
  have tab := exec_tabulated hexec
  refine ⟨tab.flags, tab.ie, fun hie hsti hreti => ?_⟩
  cases i with
  | sti a =>
    cases hexec
    have ha : a ≠ 1#1 := fun e => hsti (congrArg Instr.sti e)
    simpa using ha
  | reti => exact absurd rfl hreti
  | _ => exact (tab.ie rfl).trans hie

/-- Settles O41: the memory clauses of `exec_tabulated`. -/
theorem memoryWrittenOnlyAtStoredAddress : Obligations.MemoryWrittenOnlyAtStoredAddress := fun _ _ _ hexec =>
  have tab := exec_tabulated hexec
  ⟨tab.words, tab.written, tab.environment⟩

end Sys2Proof.Machine
end

section
/-! PROOFS. The statements that compare two runs of a step: guarded and two-memory machine, guarded and one-memory machine
(R43, D7), and one request line and another (R146). Each is a relation of states that every operation of the model keeps;
`Simulates` lists what that takes, and one walk through the forms gives it for every instruction. -/

namespace Sys2Proof.Machine

/-! ### Simulations -/

/-- The relation `R` of states and the relation `Q` of outcomes are kept by every operation that instructions are made of. -/
structure Simulates (R : State → State → Prop) (Q : Result → Result → Prop) : Prop where
  regs : ∀ {s d}, R s d → d.regs = s.regs
  pc : ∀ {s d}, R s d → d.pc = s.pc
  sp : ∀ {s d}, R s d → d.sp = s.sp
  flags : ∀ {s d}, R s d → d.flags = s.flags
  ie : ∀ {s d}, R s d → d.ie = s.ie
  setReg : ∀ {s d}, R s d → ∀ r v, R (s.setReg r v) (d.setReg r v)
  setPc : ∀ {s d}, R s d → ∀ a, R (s.setPc a) (d.setPc a)
  setSp : ∀ {s d}, R s d → ∀ a, R (s.setSp a) (d.setSp a)
  setFlags : ∀ {s d}, R s d → ∀ f, R (s.setFlags f) (d.setFlags f)
  setIe : ∀ {s d}, R s d → ∀ b, R (s.setIe b) (d.setIe b)
  storeWord : ∀ {s d}, R s d → ∀ a v, R (s.storeWord a v) (d.storeWord a v)
  next : ∀ {s d}, R s d → Q (.next s) (.next d)
  refused : ∀ why, Q (.refused why) (.refused why)
  needStorage : ∀ {s d}, R s d → ∀ a {r r'}, Q r r' → Q (s.needStorage a r) (d.needStorage a r')
  readData : ∀ {s d}, R s d → ∀ a {k k' : Word → Result}, (∀ v, Q (k v) (k' v)) → Q (s.readData a k) (d.readData a k')

namespace Simulates

variable {R : State → State → Prop} {Q : Result → Result → Prop} (sim : Simulates R Q) {s d : State} (h : R s d)
include sim h

theorem reg (r : RegIdx) : d.reg r = s.reg r := by rw [State.reg, State.reg, sim.regs h]

theorem npc (len : Nat) : d.npc len = s.npc len := by rw [State.npc, State.npc, sim.pc h]

theorem advance (len : Nat) : R (s.advance len) (d.advance len) := by
  rw [State.advance, State.advance, sim.npc h]
  exact sim.setPc h _

theorem pushWord (v : Word) : R (s.pushWord v) (d.pushWord v) := by
  rw [State.pushWord, State.pushWord, sim.sp h]
  exact sim.storeWord (sim.setSp h _) _ _

theorem writeResult (len : Nat) (rd : RegIdx) (r : Word) (f : Flags) :
    Q (.next (s.writeResult len rd r f)) (.next (d.writeResult len rd r f)) :=
  sim.next (sim.advance (sim.setFlags (sim.setReg h rd r) f) len)

theorem shiftInto (rd : RegIdx) (count : BitVec 5) (shift : Word → Nat → Word) :
    Q (s.shiftInto rd count shift) (d.shiftInto rd count shift) := by
  unfold State.shiftInto
  split
  · exact sim.refused _
  · rw [sim.reg h]
    exact sim.writeResult h 1 rd _ _

theorem loadInto (len : Nat) (rd : RegIdx) (ea : Word) : Q (s.loadInto len rd ea) (d.loadInto len rd ea) :=
  sim.readData h ea fun v => sim.next (sim.advance (sim.setReg h rd v) len)

theorem storeFrom (len : Nat) (rd : RegIdx) (ea : Word) : Q (s.storeFrom len rd ea) (d.storeFrom len rd ea) := by
  unfold State.storeFrom State.writeData
  rw [sim.reg h]
  exact sim.needStorage h ea (sim.next (sim.advance (sim.storeWord h ea _) len))

theorem pushData (v : Word) {k k' : State → Result} (hk : ∀ {s d}, R s d → Q (k s) (k' d)) :
    Q (s.pushData v k) (d.pushData v k') := by
  unfold State.pushData
  rw [sim.sp h]
  exact sim.needStorage h _ (hk (sim.pushWord h v))

theorem callTo (len : Nat) (target : Word) : Q (s.callTo len target) (d.callTo len target) := by
  unfold State.callTo
  rw [sim.npc h]
  exact sim.pushData h _ fun h => sim.next (sim.setPc h target)

theorem popWord {k k' : Word → State → Result} (hk : ∀ v {s d}, R s d → Q (k v s) (k' v d)) :
    Q (s.popWord k) (d.popWord k') := by
  unfold State.popWord
  rw [sim.sp h]
  exact sim.readData h _ fun v => hk v (sim.setSp h _)

theorem restoreFlags (u : Unpacked) : R (s.restoreFlags u) (d.restoreFlags u) := by
  unfold State.restoreFlags
  rw [sim.ie h]
  exact sim.setIe (sim.setFlags h _) _

theorem interruptEntry (layout : FlagsLayout) (vector : Word) :
    R (s.interruptEntry layout vector) (d.interruptEntry layout vector) := by
  unfold State.interruptEntry
  rw [sim.pc h, sim.flags h, sim.ie h]
  exact sim.setPc (sim.setIe (sim.pushWord (sim.pushWord h _) _) _) _

theorem takeInterrupt (layout : FlagsLayout) (vector : Word) :
    Q (s.takeInterrupt layout vector) (d.takeInterrupt layout vector) := by
  unfold State.takeInterrupt
  rw [sim.pc h, sim.flags h, sim.ie h]
  have entry := sim.next (sim.interruptEntry h layout vector)
  exact sim.pushData h _ fun h' => sim.pushData h' _ fun _ => entry

/-- Every instruction keeps a simulation. -/
theorem exec (i : Instr) : Q (exec i s) (exec i d) := by
  have hreg := sim.reg h
  cases i with
  | lsl | lsr => exact sim.shiftInto h _ _ _
  | addReg | addShort | addLong | subReg | andReg | andLong | notReg | orReg | orLong | xorReg | xorLong =>
    simp only [Machine.exec, execAddReg, execAddShort, execAddLong, execSubReg, execAndReg, execAndLong, execNotReg, execOrReg,
      execOrLong, execXorReg, execXorLong, hreg]
    exact sim.writeResult h _ _ _ _
  | loadReg | loadShort | loadLong =>
    simp only [Machine.exec, execLoadReg, execLoadShort, execLoadLong, State.eaReg, State.eaShort, State.eaLong, hreg]
    exact sim.loadInto h _ _ _
  | storeReg | storeShort | storeLong =>
    simp only [Machine.exec, execStoreReg, execStoreShort, execStoreLong, State.eaReg, State.eaShort, State.eaLong, hreg]
    exact sim.storeFrom h _ _ _
  | push =>
    simp only [Machine.exec, execPush, hreg]
    exact sim.pushData h _ fun h => sim.next (sim.advance h 1)
  | callReg | callShort | callLong =>
    simp only [Machine.exec, execCallReg, execCallShort, execCallLong, State.relTarget, hreg, sim.npc h]
    exact sim.callTo h _ _
  | pop rd => exact sim.popWord h fun v _ _ h => sim.next (sim.advance (sim.setReg h rd v) 1)
  | ret => exact sim.popWord h fun v _ _ h => sim.next (sim.setPc h v)
  | reti =>
    exact sim.popWord h fun fw _ _ h => sim.popWord h fun v _ _ h =>
      sim.next (sim.setPc (sim.restoreFlags h (Config.flagsLayout.unpack fw)) v)
  | sfa => exact sim.next (sim.advance h 1)
  | sti => exact sim.next (sim.advance (sim.setIe h _) 1)
  | jumpr | jumpaReg | jumpaLong | jumpv | jumpc | jumpnc | jumpn | jumpnn | jumpz | jumpnz =>
    simp only [Machine.exec, execJumpr, execJumpaReg, execJumpaLong, execJumpv, execJumpc, execJumpnc, execJumpn, execJumpnn,
      execJumpz, execJumpnz, State.condTarget, State.relTarget, hreg, sim.npc h, sim.flags h]
    exact sim.next (sim.setPc h _)

end Simulates

/-! ### Fetching -/

/-- Fetch and decode an instruction at an address by `fetch`, and run it. -/
def fetchDecode (fetch : Word → (Word → Result) → Result) (pc : Word) (run : Instr → Result) : Result :=
  fetch pc fun w0 =>
    match decodeHead w0 with
    | .error why => .refused (refusalOf why)
    | .ok (.done i) => run i
    | .ok (.needs complete) => fetch (pc + 1#16) fun imm => run (complete imm)

theorem fetchInstr_eq_fetchDecode (s : State) (run : Instr → Result) :
    s.fetchInstr run = fetchDecode s.fetchWord s.pc run := rfl

theorem splitFetchInstr_eq_fetchDecode (imem : Word → Option Word) (s : State) (run : Instr → Result) :
    splitFetchInstr imem s run = fetchDecode (splitFetch imem) s.pc run := rfl

/-- Two ways to fetch whose outcomes correspond give corresponding outcomes of fetch, decode and run. -/
theorem fetchDecode_corresponds {Q : Result → Result → Prop} {fetch fetch' : Word → (Word → Result) → Result}
    (hrefused : ∀ why, Q (.refused why) (.refused why))
    (hfetch : ∀ a {k k' : Word → Result}, (∀ v, Q (k v) (k' v)) → Q (fetch a k) (fetch' a k'))
    (pc : Word) {run run' : Instr → Result} (hrun : ∀ i, Q (run i) (run' i)) :
    Q (fetchDecode fetch pc run) (fetchDecode fetch' pc run') := by
  refine hfetch pc fun w0 => ?_
  rcases decodeHead w0 with why | (i | f)
  · exact hrefused _
  · exact hrun i
  · exact hfetch _ fun imm => hrun _

/-! ### One machine that goes wherever another goes -/

/-- If the first outcome is a next state, so is the second, and the two are related by `R`. -/
def Follows (R : State → State → Prop) (r r' : Result) : Prop := ∀ t, r = .next t → ∃ e, r' = .next e ∧ R t e

section
variable {R : State → State → Prop} {s d : State}

theorem follows_next (h : R s d) : Follows R (.next s) (.next d) := by
  rintro _ ⟨⟩
  exact ⟨d, rfl, h⟩

theorem follows_refused (why : Refusal) : Follows R (.refused why) (.refused why) := nofun

/-- Where the second machine has storage wherever the first has, an access it makes follows. -/
theorem follows_needStorage {a : Word} (hs : s.hasStorage a = true → d.hasStorage a = true) {r r' : Result}
    (hr : Follows R r r') : Follows R (s.needStorage a r) (d.needStorage a r') := by
  intro t ht
  obtain ⟨hsa, ht⟩ := State.needStorage_next.1 ht
  rw [State.needStorage_of (hs hsa)]
  exact hr t ht

/-- Where the second machine reads what the first reads, a read follows. -/
theorem follows_readData {a : Word} (hread : ∀ v, s.Reads a v → d.Reads a v) {k k' : Word → Result}
    (hk : ∀ v, Follows R (k v) (k' v)) : Follows R (s.readData a k) (d.readData a k') := by
  intro t ht
  obtain ⟨v, hv, ht⟩ := State.readData_next.1 ht
  rw [State.readData_of_reads (hread v hv)]
  exact hk v t ht

/-- Where the second way to fetch hands on what the first fetches, a fetch follows. -/
theorem follows_fetchWord {a : Word} {fetch' : (Word → Result) → Result}
    (hfetch : ∀ v, s.Fetches a v → ∀ k', fetch' k' = k' v) {k k' : Word → Result} (hk : ∀ v, Follows R (k v) (k' v)) :
    Follows R (s.fetchWord a k) (fetch' k') := by
  intro t ht
  obtain ⟨v, hv, ht⟩ := State.fetchWord_next.1 ht
  rw [hfetch v hv]
  exact hk v t ht

/-- The end of a step follows if the relation holds past the boundary. -/
theorem follows_endStep (hnext : ∀ s d, R s d → R s.nextBoundary d.nextBoundary) {r r' : Result} (hr : Follows R r r') :
    Follows R (endStep r) (endStep r') := by
  intro t ht
  obtain ⟨u, hu, rfl⟩ := endStep_next.1 ht
  obtain ⟨e, he, h⟩ := hr u hu
  exact ⟨e.nextBoundary, endStep_next.2 ⟨e, he, rfl⟩, hnext u e h⟩

end

/-! ### The guarded machine and the two-memory machine (R43, D7) -/

section
variable {imem : Word → Option Word} {s d : State}

theorem SplitAgrees.hasStorage (h : SplitAgrees imem s d) (a : Word) : d.hasStorage a = s.hasStorage a :=
  State.hasStorage_congr h.memWords h.excluded a

/-- The data of the two agree wherever the guarded machine may read. -/
theorem SplitAgrees.reads (h : SplitAgrees imem s d) {a v : Word} (hread : s.Reads a v) : d.Reads a v := by
  obtain ⟨hs, hg, hv⟩ := hread
  have hallowed : a.toNat ∉ s.text ∨ a.toNat ∈ s.written := by
    by_contra hno
    have := (State.textGuards_iff s a).2 ⟨h.guarded, by tauto⟩
    simp [hg] at this
  refine ⟨(h.hasStorage a).trans hs, ?_, (h.data a hallowed).trans hv⟩
  rw [Bool.eq_false_iff, ne_eq, State.textGuards_iff, h.unguarded]
  rintro ⟨⟨⟩, _⟩

/-- The instruction memory holds what the guarded machine may fetch. -/
theorem SplitAgrees.fetches (h : SplitAgrees imem s d) {a v : Word} (hfetch : s.Fetches a v) : imem a = some v := by
  obtain ⟨_, hg, hv⟩ := hfetch
  refine (h.fetched a fun hw => ?_).trans hv
  have := (State.writtenGuards_iff s a).2 ⟨h.guarded, hw⟩
  simp [hg] at this

/-- A store keeps the agreement: the word stored is the same in both data memories and is fetched no more. -/
theorem SplitAgrees.storeWord (h : SplitAgrees imem s d) (a v : Word) : SplitAgrees imem (s.storeWord a v) (d.storeWord a v) :=
  { h with
    written := congrArg (AddrSet.add · a.toNat) h.written
    data := fun k hk => by
      rw [State.word?_storeWord, State.word?_storeWord]
      split
      · rfl
      · next hne =>
        refine h.data k (hk.imp_right fun hw => ((AddrSet.mem_add ..).1 hw).resolve_left fun e => hne (BitVec.eq_of_toNat_eq e))
    fetched := fun k hk => by
      rw [State.storeWord_written, AddrSet.mem_add, not_or] at hk
      rw [State.word?_storeWord, if_neg fun e => hk.1 (congrArg BitVec.toNat e)]
      exact h.fetched k hk.2 }

/-- Agreement with the two-memory machine is a simulation. -/
theorem splitAgrees_simulates (imem : Word → Option Word) : Simulates (SplitAgrees imem) (Follows (SplitAgrees imem)) where
  regs h := h.regs
  pc h := h.pc
  sp h := h.sp
  flags h := h.flags
  ie h := h.ie
  setReg h r v := { h with regs := congrArg (fun regs : Vector Word 8 => regs.set r.toNat v r.isLt) h.regs }
  setPc h _ := { h with pc := rfl }
  setSp h _ := { h with sp := rfl }
  setFlags h _ := { h with flags := rfl }
  setIe h _ := { h with ie := rfl }
  storeWord h := h.storeWord
  next := follows_next
  refused := follows_refused
  needStorage h a _ _ := follows_needStorage fun hs => (h.hasStorage a).trans hs
  readData h _ _ _ := follows_readData fun _ => h.reads

/-- Settles O59: the interrupt condition is the same, each fetch of the guarded machine is one of the two-memory machine, and
every instruction and interrupt entry keeps the agreement. -/
theorem guardedStepAgreesWithSplitMemories : Obligations.GuardedStepAgreesWithSplitMemories := by
  intro imem s d t h
  have sim := splitAgrees_simulates imem
  have hcondition : d.interruptCondition = s.interruptCondition := by
    simp only [State.interruptCondition, State.irq, State.irqAfter, h.ie, h.irqInput, h.boundary]
  have hend : ∀ s d, SplitAgrees imem s d → SplitAgrees imem s.nextBoundary d.nextBoundary := fun _ _ h =>
    { h with irqInput := congrArg List.tail h.irqInput, boundary := congrArg (· + 1) h.boundary }
  have hfetch : ∀ a {k k' : Word → Result}, (∀ v, Follows (SplitAgrees imem) (k v) (k' v)) →
      Follows (SplitAgrees imem) (s.fetchWord a k) (splitFetch imem a k') := fun a _ _ =>
    follows_fetchWord fun v hv _ => by rw [splitFetch, h.fetches hv]
  suffices hstep : Follows (SplitAgrees imem) (step s) (splitStep imem d) from hstep t
  unfold step splitStep
  rw [hcondition]
  split
  · exact follows_endStep hend (sim.takeInterrupt h _ _)
  · rw [fetchInstr_eq_fetchDecode, splitFetchInstr_eq_fetchDecode, h.pc]
    exact follows_endStep hend (fetchDecode_corresponds follows_refused hfetch s.pc fun i => sim.exec h i)

end

/-! ### The guarded machine and the one-memory machine (R43, D7) -/

/-- The second state is the first with a unified memory stated. -/
def Unifies (s d : State) : Prop := d = { s with memOrg := .unified }

/-- What the guarded machine reads the one-memory machine reads. -/
theorem Unifies.reads {s d : State} (h : Unifies s d) {a v : Word} (hread : s.Reads a v) : d.Reads a v := by
  subst h
  exact ⟨hread.1, rfl, hread.2.2⟩

/-- What the guarded machine fetches the one-memory machine fetches. -/
theorem Unifies.fetches {s d : State} (h : Unifies s d) {a v : Word} (hfetch : s.Fetches a v) : d.Fetches a v := by
  subst h
  exact ⟨hfetch.1, rfl, hfetch.2.2⟩

/-- Stating a unified memory is a simulation. -/
theorem unifies_simulates : Simulates Unifies (Follows Unifies) where
  regs := by rintro _ _ ⟨⟩; rfl
  pc := by rintro _ _ ⟨⟩; rfl
  sp := by rintro _ _ ⟨⟩; rfl
  flags := by rintro _ _ ⟨⟩; rfl
  ie := by rintro _ _ ⟨⟩; rfl
  setReg := by rintro _ _ ⟨⟩ _ _; rfl
  setPc := by rintro _ _ ⟨⟩ _; rfl
  setSp := by rintro _ _ ⟨⟩ _; rfl
  setFlags := by rintro _ _ ⟨⟩ _; rfl
  setIe := by rintro _ _ ⟨⟩ _; rfl
  storeWord := by rintro _ _ ⟨⟩ _ _; rfl
  next := follows_next
  refused := follows_refused
  needStorage h a _ _ := follows_needStorage fun hs => by cases h; exact hs
  readData h _ _ _ := follows_readData fun _ => h.reads

/-- Settles O60: dropping the refusals changes no read and no fetch that the guarded machine makes. -/
theorem guardedStepAgreesWithUnifiedMemory : Obligations.GuardedStepAgreesWithUnifiedMemory := by
  intro s t hstep
  have hrel : Unifies s { s with memOrg := .unified } := rfl
  suffices hfollows : Follows Unifies (step s) (step { s with memOrg := .unified }) by
    obtain ⟨e, he, rfl⟩ := hfollows t hstep
    exact he
  have hend : ∀ s d, Unifies s d → Unifies s.nextBoundary d.nextBoundary := by rintro _ _ ⟨⟩; rfl
  cases hc : s.interruptCondition with
  | true =>
    rw [step_of_interrupt hc, step_of_interrupt (s := { s with memOrg := .unified }) hc]
    exact follows_endStep hend (unifies_simulates.takeInterrupt hrel _ _)
  | false =>
    rw [step_of_no_interrupt hc, step_of_no_interrupt (s := { s with memOrg := .unified }) hc]
    have hfetch : ∀ a {k k' : Word → Result}, (∀ v, Follows Unifies (k v) (k' v)) →
        Follows Unifies (s.fetchWord a k) (({ s with memOrg := .unified } : State).fetchWord a k') := fun a _ _ =>
      follows_fetchWord fun v hv => State.fetchWord_of_fetches (hrel.fetches hv)
    exact follows_endStep hend
      (fetchDecode_corresponds follows_refused hfetch s.pc fun i => unifies_simulates.exec hrel i)

/-! ### One request line and another (R146) -/

/-- The state with another script of levels and another boundary number. -/
def State.withInput (s : State) (input : List Bool) (n : Nat) : State := { s with irqInput := input, boundary := n }

/-- The second state is the first with the script and the number given. -/
def Reinputs (input : List Bool) (n : Nat) (s d : State) : Prop := d = s.withInput input n

/-- The second outcome is the first, but for the script and the number in a next state. -/
def ReinputsOutcome (input : List Bool) (n : Nat) (r r' : Result) : Prop :=
  match r with
  | .next t => r' = .next (t.withInput input n)
  | .fault f => r' = .fault f
  | .refused why => r' = .refused why

/-- Storage does not depend on the script or the number. -/
theorem reinputs_needStorage {input : List Bool} {n : Nat} (s : State) (a : Word) {r r' : Result}
    (h : ReinputsOutcome input n r r') :
    ReinputsOutcome input n (s.needStorage a r) ((s.withInput input n).needStorage a r') := by
  cases hs : s.hasStorage a with
  | true => rwa [State.needStorage_of hs, State.needStorage_of (s := s.withInput input n) hs]
  | false =>
    rw [State.needStorage_outside hs, State.needStorage_outside (s := s.withInput input n) hs]
    rfl

/-- What a read and a fetch do where there is storage: refuse a guarded word, else hand on the word or fault. -/
theorem reinputs_guarded {input : List Bool} {n : Nat} (guarded : Bool) (why : Refusal) (word : Option Word) (f : Fault)
    {k k' : Word → Result} (h : ∀ v, ReinputsOutcome input n (k v) (k' v)) :
    ReinputsOutcome input n (if guarded then .refused why else match word with | some v => k v | none => .fault f)
      (if guarded then .refused why else match word with | some v => k' v | none => .fault f) := by
  cases guarded with
  | true => rfl
  | false =>
    cases word with
    | none => rfl
    | some v => exact h v

theorem reinputs_readData {input : List Bool} {n : Nat} (s : State) (a : Word) {k k' : Word → Result}
    (h : ∀ v, ReinputsOutcome input n (k v) (k' v)) :
    ReinputsOutcome input n (s.readData a k) ((s.withInput input n).readData a k') :=
  reinputs_needStorage s a (reinputs_guarded (s.textGuards a) _ (s.word? a) _ h)

theorem reinputs_fetchWord {input : List Bool} {n : Nat} (s : State) (a : Word) {k k' : Word → Result}
    (h : ∀ v, ReinputsOutcome input n (k v) (k' v)) :
    ReinputsOutcome input n (s.fetchWord a k) ((s.withInput input n).fetchWord a k') :=
  reinputs_needStorage s a (reinputs_guarded (s.writtenGuards a) _ (s.word? a) _ h)

/-- Another script and number are a simulation: no operation of an instruction looks at them. -/
theorem reinputs_simulates (input : List Bool) (n : Nat) : Simulates (Reinputs input n) (ReinputsOutcome input n) where
  regs := by rintro _ _ ⟨⟩; rfl
  pc := by rintro _ _ ⟨⟩; rfl
  sp := by rintro _ _ ⟨⟩; rfl
  flags := by rintro _ _ ⟨⟩; rfl
  ie := by rintro _ _ ⟨⟩; rfl
  setReg := by rintro _ _ ⟨⟩ _ _; rfl
  setPc := by rintro _ _ ⟨⟩ _; rfl
  setSp := by rintro _ _ ⟨⟩ _; rfl
  setFlags := by rintro _ _ ⟨⟩ _; rfl
  setIe := by rintro _ _ ⟨⟩ _; rfl
  storeWord := by rintro _ _ ⟨⟩ _ _; rfl
  next := by rintro _ _ ⟨⟩; rfl
  refused _ := rfl
  needStorage := by rintro s _ ⟨⟩ a _ _ hr; exact reinputs_needStorage s a hr
  readData := by rintro s _ ⟨⟩ a _ _ hk; exact reinputs_readData s a hk

/-- The end of a step drops the head of the new script and counts the new number up. -/
theorem reinputs_endStep {input : List Bool} {n : Nat} {r r' : Result} (h : ReinputsOutcome input n r r') :
    ReinputsOutcome input.tail (n + 1) (endStep r) (endStep r') := by
  cases r <;> obtain rfl := h <;> rfl

/-- Settles O46: with IE = 0 the step is a fetched instruction under either script, and no fetch, read or store looks at it. -/
theorem disabledInterruptsAreNotTaken : Obligations.DisabledInterruptsAreNotTaken := by
  intro s input n hie
  have quiet : ∀ d : State, d.ie = false → d.interruptCondition = false := fun d hd => by simp [State.interruptCondition, hd]
  have hrun : ReinputsOutcome input.tail (n + 1) (step s) (step (s.withInput input n)) := by
    rw [step_of_no_interrupt (quiet s hie), step_of_no_interrupt (quiet (s.withInput input n) hie)]
    exact reinputs_endStep (fetchDecode_corresponds (reinputs_simulates input n).refused (fun a _ _ => reinputs_fetchWord s a)
      s.pc fun i => (reinputs_simulates input n).exec rfl i)
  exact ⟨fun t h => by rwa [h] at hrun, fun f h => by rwa [h] at hrun, fun why h => by rwa [h] at hrun⟩

end Sys2Proof.Machine
end

section
/-! PROOFS. The statements about the flags of ADD, about SUB and the shifts, and the register idioms (30_encoding.md section 6,
40_arithmetic_logic.md, R67, R71 to R76, R85 and R132). -/

namespace Sys2Proof.Machine

/-! ### The sign bit, and what it says of sums -/

/-- Bit 15 of a word says that its unsigned value is at least 32768. -/
theorem signBit_eq (w : Word) : w.getLsbD 15 = decide (32768 ≤ w.toNat) := BitVec.msb_eq_decide w

/-- The signed value of a word, by its unsigned one. -/
theorem toInt_cases (w : Word) :
    (w.toNat < 32768 ∧ w.toInt = w.toNat) ∨ (32768 ≤ w.toNat ∧ w.toInt = (w.toNat : Int) - 65536) := by
  rw [BitVec.toInt_eq_toNat_cond]
  split <;> omega

/-- ADD's C line is the carry out of the 17-bit sum (R85). -/
theorem carryLine_add (a b : Word) : carryLine a b (a + b) = decide (65536 ≤ a.toNat + b.toNat) := by
  have ha := a.isLt
  have hb := b.isLt
  rw [carryLine, signBit_eq, signBit_eq, signBit_eq, BitVec.toNat_add, Bool.eq_iff_iff]
  simp only [Bool.or_eq_true, Bool.and_eq_true, Bool.not_eq_true', decide_eq_true_eq, decide_eq_false_iff_not]
  omega

/-- ADD's V line says that the signed sum is out of range (R85). -/
theorem overflowLine_add (a b : Word) :
    overflowLine a b (a + b) = decide (a.toInt + b.toInt < -32768 ∨ 32767 < a.toInt + b.toInt) := by
  have ha := a.isLt
  have hb := b.isLt
  rw [overflowLine, signBit_eq, signBit_eq, signBit_eq, BitVec.toNat_add, Bool.eq_iff_iff]
  simp only [Bool.or_eq_true, Bool.and_eq_true, Bool.not_eq_true', decide_eq_true_eq, decide_eq_false_iff_not]
  rcases toInt_cases a with ⟨_, hai⟩ | ⟨_, hai⟩ <;> rcases toInt_cases b with ⟨_, hbi⟩ | ⟨_, hbi⟩ <;> omega

/-- A form that completes by `addInto` leaves the carry and the signed overflow of its operands (R85). -/
theorem add_form_flags {i : Instr} {s : State} {len : Nat} {rd : RegIdx} {a b : Word}
    (hexec : exec i s = .next (s.addInto len rd a b)) :
    ∃ t, exec i s = .next t ∧ t.flags.c = decide (65536 ≤ a.toNat + b.toNat) ∧
      t.flags.v = decide (a.toInt + b.toInt < -32768 ∨ 32767 < a.toInt + b.toInt) :=
  ⟨_, hexec, carryLine_add a b, overflowLine_add a b⟩

/-- Settles O4: the three forms are `addInto` of the register and the second operand. -/
theorem addFlagsAreCarryAndSignedOverflow : Obligations.AddFlagsAreCarryAndSignedOverflow := by
  rintro i d a y s (⟨b, rfl, rfl⟩ | ⟨k, rfl, rfl⟩ | rfl) <;> exact add_form_flags rfl

/-! ### SUB -/

/-- The whole effect of SUB under a reading `cv` of SUB_CV (R74). -/
theorem State.subInto_effect (s : State) (cv : Word → Word → Word → Bool × Bool) (rd : RegIdx) (a b : Word) :
    ResultEffect s (s.subInto cv rd a b) 1 rd (a - b) (cv a b (a - b)).1 (cv a b (a - b)).2 :=
  s.writeResult_effect 1 rd (a - b) _ _

/-- Bit 15 of the wrapped difference, as an integer modulo 65536. -/
theorem signBit_sub_iff (a b : Word) : (a - b).getLsbD 15 = true ↔ 32768 ≤ ((a.toNat : Int) - b.toNat) % 65536 := by
  have ha := a.isLt
  have hb := b.isLt
  rw [signBit_eq, decide_eq_true_iff, BitVec.toNat_sub]
  omega

/-- Settles O5: at the documented SUB_CV, C and V are the printed lines of ADD at the difference. -/
theorem subResult : Obligations.SubResult := fun d a b s =>
  ⟨_, rfl, ⟨rfl, rfl, rfl⟩, s.subInto_effect subCV d (s.reg a) (s.reg b)⟩

/-- Settles O6: the reading gives C and V only. -/
theorem subUnderEveryReading : Obligations.SubUnderEveryReading := by
  intro cv d a b s
  have effect := s.subInto_effect cv d (s.reg a) (s.reg b)
  refine ⟨rfl, effect, ?zero, ?negative⟩
  case zero =>
    rw [effect.zero, decide_eq_true_iff]
    exact sub_eq_zero
  case negative => rw [effect.negative, signBit_sub_iff]

/-! ### Shifts -/

/-- A shift by a count below 16 completes (R75, R76). -/
theorem State.shiftInto_of {count : BitVec 5} (h : count.toNat < 16) (s : State) (rd : RegIdx) (shift : Word → Nat → Word) :
    s.shiftInto rd count shift = .next (s.logicInto 1 rd (shift (s.reg rd) count.toNat)) :=
  State.shiftInto_next.2 ⟨h, rfl⟩

/-- Shifting left multiplies by a power of 2, modulo 65536 (R75). -/
theorem shiftLeft_eq_mul (a : Word) (n : Nat) : a <<< n = BitVec.ofNat 16 (a.toNat * 2 ^ n) :=
  BitVec.eq_of_toNat_eq (by rw [BitVec.toNat_shiftLeft, BitVec.toNat_ofNat, Nat.shiftLeft_eq])

/-- Shifting right divides by a power of 2 (R76). -/
theorem shiftRight_eq_div (a : Word) (n : Nat) : a >>> n = BitVec.ofNat 16 (a.toNat / 2 ^ n) := by
  rw [← Nat.shiftRight_eq_div_pow, ← BitVec.toNat_ushiftRight, BitVec.ofNat_toNat, BitVec.setWidth_eq]

/-- Settles O7: LSL below 16 is `logicInto` of the left shift. -/
theorem shiftLeftResult : Obligations.ShiftLeftResult := fun d n s hn => by
  rw [← shiftLeft_eq_mul]
  exact logic_form_completes (s.shiftInto_of hn d _) ⟨rfl, rfl, rfl⟩

/-- Settles O8: LSR below 16 is `logicInto` of the right shift. -/
theorem shiftRightResult : Obligations.ShiftRightResult := fun d n s hn => by
  rw [← shiftRight_eq_div]
  exact logic_form_completes (s.shiftInto_of hn d _) ⟨rfl, rfl, rfl⟩

/-- A shift is refused for its count exactly when the count is 16 or more (R61). -/
theorem State.shiftInto_refused {s : State} {rd : RegIdx} {count : BitVec 5} {shift : Word → Nat → Word} :
    s.shiftInto rd count shift = .refused .shiftCount16To31 ↔ decide (count.toNat < 16) = false := by
  unfold State.shiftInto
  split
  · next h => simpa using h
  · next h => simpa using h

/-- An access is refused for a shift count only if what it goes on to is. -/
theorem State.needStorage_ne_shiftRefusal {s : State} {a : Word} {r : Result} (h : r ≠ .refused .shiftCount16To31) :
    s.needStorage a r ≠ .refused .shiftCount16To31 := by
  unfold State.needStorage
  split
  · exact h
  · nofun

/-- A data read is refused for a shift count only if what it hands its word on to is. -/
theorem State.readData_ne_shiftRefusal {s : State} {a : Word} {k : Word → Result}
    (h : ∀ v, k v ≠ .refused .shiftCount16To31) : s.readData a k ≠ .refused .shiftCount16To31 := by
  refine State.needStorage_ne_shiftRefusal ?_
  split
  · nofun
  split
  · exact h _
  · nofun

/-- Settles O9: only `shiftInto` refuses for a count; no access does, and every other form completes. -/
theorem shiftCountRefused : Obligations.ShiftCountRefused := by
  intro i s
  cases i with
  | lsl | lsr => exact State.shiftInto_refused
  | loadReg | loadShort | loadLong | pop | ret => exact iff_of_false (State.readData_ne_shiftRefusal nofun) nofun
  | reti =>
    exact iff_of_false (State.readData_ne_shiftRefusal fun _ => State.readData_ne_shiftRefusal nofun) nofun
  | storeReg | storeShort | storeLong | push | callReg | callShort | callLong =>
    exact iff_of_false (State.needStorage_ne_shiftRefusal nofun) nofun
  | addReg | addShort | addLong | subReg | andReg | andLong | notReg | orReg | orLong | xorReg | xorLong | sfa | sti | jumpr
  | jumpaReg | jumpaLong | jumpv | jumpc | jumpnc | jumpn | jumpnn | jumpz | jumpnz => exact iff_of_false nofun nofun

/-! ### Idioms -/

/-- Of two results in one register the second stays, and the lengths add up. -/
theorem ResultEffect.trans_same {s t u : State} {len len' : Nat} {rd : RegIdx} {r r' : Word} {c v c' v' : Bool}
    (h : ResultEffect s t len rd r c v) (h' : ResultEffect t u len' rd r' c' v') :
    ResultEffect s u (len + len') rd r' c' v' where
  result := h'.result
  otherRegs k hk := (h'.otherRegs k hk).trans (h.otherRegs k hk)
  negative := h'.negative
  zero := h'.zero
  carry := h'.carry
  overflow := h'.overflow
  pc := by rw [h'.pc, h.pc, BitVec.add_assoc, BitVec.ofNat_add]
  sp := h'.sp.trans h.sp
  ie := h'.ie.trans h.ie
  memory a := (h'.memory a).trans (h.memory a)
  written := h'.written.trans h.written
  environment := by
    obtain ⟨hw, he, ho, ht, hi, hb⟩ := h.environment
    obtain ⟨hw', he', ho', ht', hi', hb'⟩ := h'.environment
    exact ⟨hw'.trans hw, he'.trans he, ho'.trans ho, ht'.trans ht, hi'.trans hi, hb'.trans hb⟩

/-- XOR of a register with itself writes 0. -/
theorem exec_xorReg_self (s : State) (d : RegIdx) : exec (.xorReg d d d) s = .next (s.logicInto 1 d 0#16) := by
  rw [exec, execXorReg, BitVec.xor_self]

/-- OR of a register with itself writes its value. -/
theorem exec_orReg_self (s : State) (d a : RegIdx) : exec (.orReg d a a) s = .next (s.logicInto 1 d (s.reg a)) := by
  rw [exec, execOrReg, BitVec.or_self]

/-- The sum with 0 is the value, with no carry and no overflow. -/
theorem exec_addShort_zero (s : State) (d a : RegIdx) :
    exec (.addShort d a 0#5) s = .next (s.logicInto 1 d (s.reg a)) := by
  have noFlags : addFlags (s.reg a) 0#16 (s.reg a) = logicFlags (s.reg a) := by
    simp [addFlags, logicFlags, carryLine, overflowLine]
  rw [exec, execAddShort, State.addInto, show sext16 0#5 = 0#16 from rfl, BitVec.add_zero, noFlags, State.logicInto]

/-- OR of a cleared register with a word writes the word. -/
theorem exec_orLong_of_zero {s : State} {d : RegIdx} (h : s.reg d = 0#16) (k : Word) :
    exec (.orLong d d k) s = .next (s.logicInto 2 d k) := by
  rw [exec, execOrLong, h, BitVec.zero_or]

/-- Settles O14: each idiom is `logicInto` of the value it is for, and the last is two of them in one register. -/
theorem registerIdioms : Obligations.RegisterIdioms := by
  intro d a k s
  have clear := s.logicInto_effect 1 d 0#16
  exact ⟨⟨_, exec_xorReg_self s d, clear⟩, ⟨_, exec_orReg_self s d a, s.logicInto_effect 1 d (s.reg a)⟩,
    ⟨_, exec_addShort_zero s d a, s.logicInto_effect 1 d (s.reg a)⟩,
    ⟨_, _, exec_xorReg_self s d, exec_orLong_of_zero clear.result k, clear.trans_same (State.logicInto_effect _ 2 d k)⟩⟩

end Sys2Proof.Machine
end

section
/-! PROOFS. The statements about LOAD and STORE, the stack, CALL, RETURN, RETI and STI (41_load_store.md, 42_stack.md,
43_call_return.md, 44_system.md): what the remaining forms do, where the memory forms stop, and what a form reads after one that
wrote. -/

namespace Sys2Proof.Machine

/-! ### Reads after writes, and reads that stop -/

/-- A word that reads as before, whose address is still in `written` if it was, is readable as before. -/
theorem State.Reads.of_same {s t : State} {a v : Word} (h : s.Reads a v) (hword : t.word? a = s.word? a)
    (hwritten : a.toNat ∈ s.written → a.toNat ∈ t.written) (env : SameEnvironment s t) : t.Reads a v := by
  obtain ⟨hwords, hexcluded, horg, htext, _, _⟩ := env
  obtain ⟨hs, hg, hv⟩ := h
  refine ⟨(State.hasStorage_congr hwords hexcluded a).trans hs, ?_, hword.trans hv⟩
  rw [Bool.eq_false_iff, ne_eq, State.textGuards_iff] at hg ⊢
  rw [horg, htext]
  tauto

section
variable {s t : State} {ea v sp pc : Word} (h : StoreEffect s t ea v sp pc)
include h

/-- Storage is where it was before a store. -/
theorem StoreEffect.hasStorage (a : Word) : t.hasStorage a = s.hasStorage a :=
  State.hasStorage_congr h.environment.1 h.environment.2.1 a

/-- A word just stored to the launch memory is readable, under either premise on memory. -/
theorem StoreEffect.reads_stored (hs : s.hasStorage ea = true) : t.Reads ea v := by
  refine ⟨(h.hasStorage ea).trans hs, ?_, h.stored⟩
  rw [Bool.eq_false_iff, ne_eq, State.textGuards_iff, h.written]
  tauto

/-- A word readable before a store elsewhere is readable after it. -/
theorem StoreEffect.reads_other {a w : Word} (hread : s.Reads a w) (hne : a ≠ ea) : t.Reads a w :=
  hread.of_same (h.otherWords a hne) (fun hw => (h.written _).2 (.inr hw)) h.environment

end

/-- A data read outside the launch memory is stuck (R90). -/
theorem State.readData_outside {s : State} {a : Word} (h : s.hasStorage a = false) (k : Word → Result) :
    s.readData a k = .fault (.accessOutsideLaunchMemory a) := State.needStorage_outside h _

/-! ### LOAD and STORE (R90 to R97) -/

/-- A LOAD form is `loadInto` at its effective address. -/
theorem LoadsAt.exec_eq {i : Instr} {s : State} {rd : RegIdx} {ea : Word} (h : LoadsAt i s rd ea) :
    exec i s = s.loadInto i.length rd ea := by
  rcases h with ⟨_, _, rfl, rfl⟩ | ⟨_, _, rfl, rfl⟩ | ⟨_, _, rfl, rfl⟩ <;> rfl

/-- A STORE form is `storeFrom` at its effective address. -/
theorem StoresAt.exec_eq {i : Instr} {s : State} {rd : RegIdx} {ea : Word} (h : StoresAt i s rd ea) :
    exec i s = s.storeFrom i.length rd ea := by
  rcases h with ⟨_, _, rfl, rfl⟩ | ⟨_, _, rfl, rfl⟩ | ⟨_, _, rfl, rfl⟩ <;> rfl

/-- Settles O17: LOAD d, simm16(s) is `loadInto` at the base plus the second word. -/
theorem loadLongResult : Obligations.LoadLongResult := fun _ _ _ _ _ hread =>
  load_form_completes hread rfl ⟨rfl, rfl, rfl⟩

/-- Settles O21: STORE d, simm16(s) is `storeFrom` at the base plus the second word. -/
theorem storeLongResult : Obligations.StoreLongResult := fun _ _ _ _ hstorage =>
  store_form_completes hstorage rfl ⟨rfl, rfl, rfl⟩

/-- Settles O18: the branches are those of a data read and of a data write. -/
theorem loadAndStoreStops : Obligations.LoadAndStoreStops := by
  refine fun i d ea s => ⟨fun hload => hload.exec_eq.trans ?load, fun hstore => hstore.exec_eq.trans ?store⟩
  case load =>
    split
    · next hs => exact State.readData_outside hs _
    next hs =>
    rw [Bool.not_eq_false] at hs
    split
    · next hg => exact State.readData_guarded hs ((s.textGuards_iff ea).2 hg) _
    next hg =>
    rw [← State.textGuards_iff, Bool.not_eq_true] at hg
    split
    · next hw => exact State.readData_unwritten hs hg hw _
    · next hw =>
      obtain ⟨v, hv⟩ := Option.ne_none_iff_exists'.1 hw
      rw [State.loadInto_of_reads ⟨hs, hg, hv⟩, hv, Option.getD_some]
  case store =>
    split
    · next hs => exact State.needStorage_outside hs _
    · next hs =>
      rw [Bool.not_eq_false] at hs
      exact State.storeFrom_of hs _ _

/-- A STORE form that goes on had storage at its address, and leaves what a STORE leaves. -/
theorem StoresAt.effect {i : Instr} {s t : State} {rd : RegIdx} {ea : Word} (h : StoresAt i s rd ea)
    (hexec : exec i s = .next t) :
    s.hasStorage ea = true ∧ StoreEffect s t ea (s.reg rd) s.sp (s.npc i.length) := by
  obtain ⟨hs, rfl⟩ := State.storeFrom_next.1 (h.exec_eq.symm.trans hexec)
  exact ⟨hs, s.stored_effect i.length ea (s.reg rd)⟩

/-- A LOAD form at a readable word completes with it in its register. -/
theorem LoadsAt.completes {i : Instr} {s : State} {rd : RegIdx} {ea v : Word} (h : LoadsAt i s rd ea) (hread : s.Reads ea v) :
    ∃ t, exec i s = .next t ∧ t.reg rd = v :=
  ⟨_, h.exec_eq.trans (State.loadInto_of_reads hread _ _), (s.loaded_effect _ rd v).loaded⟩

/-- Settles O22: after the store its word is readable, every other readable word still is, and there is still storage. -/
theorem loadAfterStore : Obligations.LoadAfterStore := by
  intro i j k d d' e ea ea' s t hstore hexec hload hstore'
  obtain ⟨hs, effect⟩ := hstore.effect hexec
  refine ⟨?same, ?other, ?again⟩
  case same =>
    rintro rfl
    exact hload.completes (effect.reads_stored hs)
  case other => exact fun hne v hread => hload.completes (effect.reads_other hread hne.symm)
  case again =>
    have hexec' := hstore'.exec_eq.trans (State.storeFrom_of ((effect.hasStorage ea).trans hs) _ _)
    exact ⟨_, hexec', (hstore'.effect hexec').2.stored.trans (congrArg some (effect.regs d'))⟩

/-! ### The stack (R100 to R102) -/

/-- Settles O23: PUSH pushes its register and goes past its one word. -/
theorem pushResult : Obligations.PushResult := fun a s hstorage =>
  ⟨_, exec_push_of hstorage a, ⟨rfl, rfl, rfl⟩, s.pushed_effect (s.reg a) (s.npc 1)⟩

/-- Settles O24: POP at a readable stack word writes it to the register and moves sp. -/
theorem popResult : Obligations.PopResult := fun d _ _ hread =>
  ⟨_, exec_pop_of_reads hread d, ⟨rfl, rfl, rfl⟩, State.reg_setReg_same _ _ _, fun _ hk => State.reg_setReg_other _ _ _ _ hk,
    rfl, rfl, rfl, rfl, fun _ => rfl, rfl, ⟨rfl, rfl, rfl, rfl, rfl, rfl⟩⟩

/-- Settles O25: a pop reads what the last push that is not yet popped stored. -/
theorem pushThenPop : Obligations.PushThenPop := by
  intro a b d e s h1
  obtain ⟨t₁, hpush₁, -, push₁⟩ := pushResult a s h1
  refine ⟨?single, fun hne h2 => ?double⟩
  case single =>
    have top : t₁.Reads t₁.sp (s.reg a) := push₁.sp ▸ push₁.reads_stored h1
    obtain ⟨u, hpop, -, hd, hother, hsp, -, hflags, -, hmem, -, -⟩ := popResult d _ t₁ top
    exact ⟨t₁, u, hpush₁, hpop, by rw [hsp, push₁.sp, BitVec.sub_add_cancel], hd,
      fun k hk => (hother k hk).trans (push₁.regs k), hflags.trans push₁.flags, (hmem _).trans push₁.stored⟩
  case double =>
    have hsp₂ : t₁.sp - 1#16 = s.sp - 2#16 := by rw [push₁.sp, BitVec.sub_sub]; rfl
    obtain ⟨t₂, hpush₂, -, push₂⟩ := pushResult b t₁ (by rw [hsp₂, push₁.hasStorage, h2])
    have top : t₂.Reads t₂.sp (s.reg b) := by
      rw [push₂.sp, ← push₁.regs]
      exact push₂.reads_stored (by rw [hsp₂, push₁.hasStorage, h2])
    obtain ⟨t₃, hpop₁, -, hd, -, hsp₃, -, -, -, hmem, hwritten, env⟩ := popResult d _ t₂ top
    have hsp₃' : t₃.sp = s.sp - 1#16 := by rw [hsp₃, push₂.sp, BitVec.sub_add_cancel, push₁.sp]
    have next : t₃.Reads t₃.sp (s.reg a) := by
      rw [hsp₃']
      have below : s.sp - 1#16 ≠ t₁.sp - 1#16 := by rw [hsp₂]; bv_omega
      exact (push₂.reads_other (push₁.reads_stored h1) below).of_same (hmem _) (fun hw => hwritten ▸ hw) env
    obtain ⟨u, hpop₂, -, he, hother, hsp₄, -⟩ := popResult e _ t₃ next
    exact ⟨t₁, t₂, t₃, u, hpush₁, hpush₂, hpop₁, hpop₂, by rw [hsp₄, hsp₃', BitVec.sub_add_cancel],
      (hother d hne.symm).trans hd, he⟩

/-! ### CALL, RETURN, RETI, STI (R105 to R116) -/

/-- A CALL form that pushes into the launch memory completes, and leaves what a push and a transfer leave. -/
theorem call_form_completes {i : Instr} {s : State} {len : Nat} {target : Word} {op : BitVec 5} {fmt : Format}
    (hstorage : s.hasStorage (s.sp - 1#16) = true) (hexec : exec i s = s.callTo len target) (hform : HasForm i op fmt len) :
    ∃ t, exec i s = .next t ∧ HasForm i op fmt len ∧ StoreEffect s t (s.sp - 1#16) (s.npc len) (s.sp - 1#16) target :=
  ⟨_, hexec.trans (State.callTo_of hstorage len target), hform, s.pushed_effect (s.npc len) target⟩

/-- Settles O27: CALL simm11 is `callTo` of the target that JUMPR goes to. -/
theorem callRelativeResult : Obligations.CallRelativeResult := fun k s hstorage => by
  obtain ⟨t, hexec, hform, effect⟩ :=
    call_form_completes (i := .callShort k) (target := s.relTarget k) hstorage rfl ⟨rfl, rfl, rfl⟩
  exact ⟨t, hexec, hform, effect, _, rfl, effect.pc.symm⟩

/-- Settles O28: CALL imm16 is `callTo` of the second word, over two words. -/
theorem callAbsoluteResult : Obligations.CallAbsoluteResult := fun _ _ hstorage =>
  call_form_completes hstorage rfl ⟨rfl, rfl, rfl⟩

/-- The three CALL forms are `callTo` over their length. -/
theorem call_form_exec {i : Instr} (h : (∃ a, i = .callReg a) ∨ (∃ k, i = .callShort k) ∨ (∃ k, i = .callLong k))
    (s : State) : ∃ target, exec i s = s.callTo i.length target := by
  rcases h with ⟨_, rfl⟩ | ⟨_, rfl⟩ | ⟨_, rfl⟩ <;> exact ⟨_, rfl⟩

/-- Settles O30: the word at sp is the address after the CALL, which RETURN takes. -/
theorem callThenReturn : Obligations.CallThenReturn := by
  intro i s t u hcall hexec hsp hword hstorage hguards
  obtain ⟨target, hcallTo⟩ := call_form_exec hcall s
  obtain ⟨_, rfl⟩ := State.callTo_next.1 (hcallTo.symm.trans hexec)
  have effect := s.pushed_effect (s.npc i.length) target
  have top : u.Reads u.sp (s.npc i.length) := ⟨hstorage, hguards, by rw [hsp, hword]; exact effect.stored⟩
  refine ⟨_, exec_ret_of_reads top, ?_, rfl⟩
  rw [State.setPc_sp, State.setSp_sp, hsp, effect.sp, BitVec.sub_add_cancel]

/-- Settles O31: RETI at two readable stack words restores the flags from the first and goes to the second. -/
theorem retiResult : Obligations.RetiResult := by
  intro fw target s hflags htarget
  refine ⟨_, exec_reti_of_reads hflags htarget, ⟨rfl, rfl, rfl⟩, rfl, BitVec.add_assoc .., rfl, fun b hb => ?_, fun hn => ?_,
    fun _ => rfl, fun _ => rfl, rfl, ⟨rfl, rfl, rfl, rfl, rfl, rfl⟩⟩
  · exact congrArg (·.getD s.ie) hb
  · exact congrArg (·.getD s.ie) hn

/-- POP, RETURN and RETI begin with a data read at sp. -/
theorem pop_form_exec {i : Instr} {d : RegIdx} (h : i = .pop d ∨ i = .ret ∨ i = .reti) (s : State) :
    ∃ k, exec i s = s.readData s.sp k := by
  rcases h with rfl | rfl | rfl <;> exact ⟨_, rfl⟩

/-- RETI with the first word readable goes on with a data read at sp + 1. -/
theorem exec_reti_second_read {s : State} {fw : Word} (h : s.Reads s.sp fw) :
    ∃ k, exec .reti s = (s.setSp (s.sp + 1#16)).readData (s.sp + 1#16) k := by
  rw [exec, execReti, State.interruptReturn, State.popWord_of_reads h]
  exact ⟨_, rfl⟩

/-- PUSH and the three CALL forms begin with an access at the new sp. -/
theorem push_form_exec {i : Instr}
    (h : (∃ a, i = .push a ∨ i = .callReg a) ∨ (∃ k, i = .callShort k) ∨ (∃ k, i = .callLong k)) (s : State) : ∃ r, exec i s = s.needStorage (s.sp - 1#16) r := by
  rcases h with ⟨_, rfl | rfl⟩ | ⟨_, rfl⟩ | ⟨_, rfl⟩ <;> exact ⟨_, rfl⟩

/-- Settles O32: each form stops as its access at the stack word does. -/
theorem stackStops : Obligations.StackStops := by
  refine fun i d s => ⟨fun hpush hs => ?push, fun hpop => ?pop, fun fw hfw => ?second⟩
  case push =>
    obtain ⟨r, hexec⟩ := push_form_exec hpush s
    exact hexec.trans (State.needStorage_outside hs r)
  case pop =>
    obtain ⟨k, hexec⟩ := pop_form_exec hpop s
    exact ⟨fun hs => hexec.trans (State.readData_outside hs k), fun hs hg => hexec.trans (State.readData_guarded hs hg k),
      fun hs hg hw => hexec.trans (State.readData_unwritten hs hg hw k)⟩
  case second =>
    obtain ⟨k, hexec⟩ := exec_reti_second_read hfw
    exact ⟨fun hs => hexec.trans (State.readData_outside hs k), fun hs hg => hexec.trans (State.readData_guarded hs hg k),
      fun hs hg hw => hexec.trans (State.readData_unwritten hs hg hw k)⟩

/-- Settles O34: STI sets IE and goes past its one word. -/
theorem stiResult : Obligations.StiResult := fun a s =>
  ⟨(s.setIe (a == 1#1)).advance 1, rfl, ⟨rfl, rfl, rfl⟩, rfl, rfl, rfl, fun _ => rfl, rfl, fun _ => rfl, rfl,
    ⟨rfl, rfl, rfl, rfl, rfl, rfl⟩⟩

end Sys2Proof.Machine
end

section
/-! PROOFS. The statements about a step: the fetched instruction, where a fetch stops, interrupt entry and the return from it, STI
at the next boundary, and the end of a run (R17, R43, R57, R116, R146 to R149, R171). -/

namespace Sys2Proof.Machine

/-! ### Fetch, decode and run -/

section
variable {s : State} {w0 : Word} (h : s.Fetches s.pc w0) (run : Instr → Result)
include h

/-- A first word that selects a one-word form is run at once. -/
theorem State.fetchInstr_of_done {i : Instr} (hd : decodeHead w0 = .ok (.done i)) : s.fetchInstr run = run i := by
  rw [State.fetchInstr, State.fetchWord_of_fetches h, hd]

/-- A first word that selects a two-word form has the second word fetched. -/
theorem State.fetchInstr_of_needs {f : Word → Instr} (hd : decodeHead w0 = .ok (.needs f)) :
    s.fetchInstr run = s.fetchWord (s.pc + 1#16) fun imm => run (f imm) := by
  rw [State.fetchInstr, State.fetchWord_of_fetches h, hd]

/-- A first word that selects no form is refused by its name (R57). -/
theorem State.fetchInstr_of_error {why : Unlisted} (hd : decodeHead w0 = .error why) :
    s.fetchInstr run = .refused (refusalOf why) := by
  rw [State.fetchInstr, State.fetchWord_of_fetches h, hd]

end

/-- Where no interrupt is taken and the words fetched decode to `i`, the step is `i` and the next boundary (R17). -/
theorem step_of_decodes {s : State} {i : Instr} {w0 imm : Word} (hc : s.interruptCondition = false) (h0 : s.Fetches s.pc w0)
    (hd : decode [w0] = .ok (i, []) ∨ s.Fetches (s.pc + 1#16) imm ∧ decode [w0, imm] = .ok (i, [])) :
    step s = endStep (exec i s) := by
  rw [step_of_no_interrupt hc]
  rcases hd with hone | ⟨h1, htwo⟩
  · rw [State.fetchInstr_of_done h0 _ (decode_one.1 hone)]
  · obtain ⟨f, hf, rfl⟩ := decode_two.1 htwo
    rw [State.fetchInstr_of_needs h0 _ hf, State.fetchWord_of_fetches h1]

/-- Settles O43: the end of a step hands every outcome on, with a next state at the next boundary. -/
theorem stepRunsDecodedInstruction : Obligations.StepRunsDecodedInstruction := by
  intro s i w0 imm hc h0 hd
  rw [step_of_decodes hc h0 hd]
  refine ⟨?_, ?_, ?_⟩ <;> intro _ h <;> rw [h] <;> rfl

/-- Settles O44: the first fetch stops as its access does, a word that selects no form is refused, and a two-word form goes on
with a second fetch, which stops in the same ways. -/
theorem fetchStops : Obligations.FetchStops := by
  intro s hc
  rw [step_of_no_interrupt hc]
  refine ⟨fun hs => ?_, fun hs hg => ?_, fun hs hg hw => ?_, fun w0 h0 => ?_, fun w0 f h0 hf => ?_⟩
  · rw [State.fetchInstr, State.fetchWord, State.needStorage_outside hs]; rfl
  · rw [State.fetchInstr, State.fetchWord_guarded hs hg]; rfl
  · rw [State.fetchInstr, State.fetchWord_unwritten hs hg hw]; rfl
  · refine ⟨?_, ?_, ?_⟩ <;> intro hd <;> rw [State.fetchInstr_of_error h0 _ hd] <;> rfl
  · rw [State.fetchInstr_of_needs h0 _ hf]
    refine ⟨fun hs => ?_, fun hs hg => ?_, fun hs hg hw => ?_⟩
    · rw [State.fetchWord, State.needStorage_outside hs]; rfl
    · rw [State.fetchWord_guarded hs hg]; rfl
    · rw [State.fetchWord_unwritten hs hg hw]; rfl

/-! ### Interrupt entry and the return from it -/

/-- The second stack word of an interrupt entry. -/
theorem sub_one_sub_one (a : Word) : a - 1#16 - 1#16 = a - 2#16 := by rw [BitVec.sub_sub]; rfl

/-- A push outside the launch memory is stuck. -/
theorem State.pushData_outside {s : State} (h : s.hasStorage (s.sp - 1#16) = false) (v : Word) (k : State → Result) :
    s.pushData v k = .fault (.accessOutsideLaunchMemory (s.sp - 1#16)) := State.needStorage_outside h _

/-- Interrupt entry marks the two stack words as written. -/
theorem State.mem_written_interruptEntry (s : State) (layout : FlagsLayout) (vector : Word) (k : Nat) :
    k ∈ (s.interruptEntry layout vector).written ↔
      k = (s.sp - 1#16).toNat ∨ k = (s.sp - 2#16).toNat ∨ k ∈ s.written := by
  have both : (s.interruptEntry layout vector).written =
      AddrSet.add (AddrSet.add s.written (s.sp - 1#16).toNat) (s.sp - 1#16 - 1#16).toNat := rfl
  rw [both, sub_one_sub_one, AddrSet.mem_add, AddrSet.mem_add, or_left_comm]

/-- Settles O45: each of the two pushes needs storage, the first one first; with both the step is the entry. -/
theorem interruptEntryEffect : Obligations.InterruptEntryEffect := by
  intro s hie hirq
  have hc : s.interruptCondition = true := by rw [State.interruptCondition, hie, hirq]; rfl
  refine ⟨fun h1 => ?first, fun h1 h2 => ?second, fun h1 h2 => ?entry⟩
  case first => rw [step_of_interrupt hc, State.takeInterrupt, State.pushData_outside h1]; rfl
  case second =>
    rw [← sub_one_sub_one] at h2 ⊢
    rw [step_of_interrupt hc, State.takeInterrupt, State.pushData_of h1, State.pushData_outside (s := s.pushWord s.pc) h2]; rfl
  case entry =>
    obtain ⟨hpc, hie', hflags, hregs, hsp, hword⟩ := s.interruptEntry_fields Config.flagsLayout Config.intVector
    have hne : s.sp - 1#16 ≠ s.sp - 2#16 := by bv_omega
    refine ⟨_, step_of_interrupt_stored hc h1 (by rwa [sub_one_sub_one]), hpc, hsp, hie', hflags,
      fun k => congrArg (fun regs : Vector Word 8 => regs[k.toNat]'k.isLt) hregs, ?_, ?_, fun a ha1 ha2 => ?_,
      s.mem_written_interruptEntry Config.flagsLayout Config.intVector, rfl, rfl, rfl, rfl, rfl, rfl⟩
    · rw [State.nextBoundary_word?, hword, if_neg hne, if_pos rfl]
    · rw [State.nextBoundary_word?, hword, if_pos rfl, hie]
    · rw [State.nextBoundary_word?, hword, if_neg ha2, if_neg ha1]

/-- Settles O47: the two words pushed are readable whatever the premise on memory, and unpacking inverts packing. -/
theorem interruptEntryThenReturnRestores : Obligations.InterruptEntryThenReturnRestores := by
  intro s hie hirq h1 h2
  obtain ⟨t, hstep, -, hsp, hie', hflags, hregs, hw1, hw2, hwords, hwritten, -, -, hmemWords, hexcluded, -, -⟩ :=
    (interruptEntryEffect s hie hirq).2.2 h1 h2
  have readable : ∀ {a v : Word}, s.hasStorage a = true → a.toNat ∈ t.written → t.word? a = some v → t.Reads a v := by
    intro a v hs hw hv
    refine ⟨(State.hasStorage_congr hmemWords hexcluded a).trans hs, ?_, hv⟩
    rw [Bool.eq_false_iff, ne_eq, State.textGuards_iff]
    tauto
  have upper : t.sp + 1#16 = s.sp - 1#16 := by rw [hsp]; bv_omega
  have flagsWord : t.Reads t.sp (Config.flagsLayout.pack s.flags true) := by
    rw [hsp]
    exact readable h2 ((hwritten _).2 (.inr (.inl rfl))) hw2
  have target : t.Reads (t.sp + 1#16) s.pc := by
    rw [upper]
    exact readable h1 ((hwritten _).2 (.inl rfl)) hw1
  obtain ⟨u, hreti, -, hpc, husp, huflags, hsome, hnone, huregs, humem, -, -⟩ := retiResult _ _ t flagsWord target
  obtain ⟨hlawFlags, hlawIe⟩ := Config.flagsLayout.lawful s.flags true
  refine ⟨t, u, hstep, hreti, hpc, ?_, huflags.trans hlawFlags, fun k => (huregs k).trans (hregs k), ?_,
    fun a ha1 ha2 => (humem a).trans (hwords a ha1 ha2)⟩
  · rw [husp, hsp, BitVec.sub_add_cancel]
  · exact hlawIe.imp (hsome true) fun hn => ⟨(hnone hn).trans hie', hn⟩

/-! ### STI at the next boundary -/

/-- Settles O50: the step leaves IE at the operand and pc past the STI, and an entry there pushes that pc. -/
theorem stiActsAtNextBoundary : Obligations.StiActsAtNextBoundary := by
  intro s t w0 a hc h0 hd hstep
  obtain ⟨u, hexec, rfl⟩ := endStep_next.1 ((step_of_decodes (imm := 0#16) hc h0 (.inl hd)).symm.trans hstep)
  obtain ⟨_, hsti, -, hie, hpc, hsp, -, -, -, -, env⟩ := stiResult a s
  obtain rfl := Host.Outcome.next.inj (hexec.symm.trans hsti)
  refine ⟨by rw [State.interruptCondition, State.nextBoundary_ie, hie], fun hcond h1 h2 => ?_⟩
  obtain ⟨hie', hirq'⟩ := Bool.and_eq_true_iff.1 hcond
  have storage : ∀ b, u.hasStorage b = s.hasStorage b := State.hasStorage_congr env.1 env.2.1
  have entry := (interruptEntryEffect u.nextBoundary hie' hirq').2.2
  rw [State.nextBoundary_sp, hsp, State.nextBoundary_hasStorage, State.nextBoundary_hasStorage, storage, storage] at entry
  obtain ⟨v, hv, -, -, -, -, -, hword, -⟩ := entry h1 h2
  exact ⟨v, hv, hword.trans (congrArg some hpc)⟩

/-! ### The end of a run -/

/-- JUMPR -1 goes to itself (R121). -/
theorem exec_jumpr_minusOne (s : State) : exec (.jumpr 0x7FF#11) s = .next s := by
  have back : s.relTarget 0x7FF#11 = s.pc := by
    rw [State.relTarget, show sext16 0x7FF#11 = 0xFFFF#16 from rfl, State.npc]
    bv_omega
  rw [exec, execJumpr, back]; rfl

/-- At a JUMPR -1 with no interrupt taken the step changes nothing but the boundary. -/
theorem step_at_end {s : State} (h : s.Fetches s.pc 0xE7FF#16) (hc : s.interruptCondition = false) :
    step s = .next s.nextBoundary := by
  have hd : decode [0xE7FF#16] = .ok (.jumpr 0x7FF#11, []) := rfl
  rw [step_of_decodes (imm := 0#16) hc h (.inl hd), exec_jumpr_minusOne]; rfl

/-- As long as no interrupt can be taken a run at a JUMPR -1 changes nothing but the boundary. -/
theorem run_at_end (n : Nat) {s : State} (h : s.Fetches s.pc 0xE7FF#16) (hq : s.QuietFor n) :
    run n s = .next (s.withInput (s.irqInput.drop n) (s.boundary + n)) := by
  induction n generalizing s with
  | zero => rfl
  | succ n ih =>
    have hc : s.interruptCondition = false := by
      rcases hq with hie | hirq
      · simp [State.interruptCondition, hie]
      · simp [State.interruptCondition, State.irq, hirq 0 (Nat.succ_pos n)]
    have hq' : s.nextBoundary.QuietFor n :=
      hq.imp id fun hirq k hk => (s.nextBoundary_irqAfter k).trans (hirq (k + 1) (Nat.succ_lt_succ hk))
    rw [run, step_at_end h hc]
    refine (ih (s := s.nextBoundary) h hq').trans ?_
    simp [State.withInput, State.nextBoundary, Nat.add_assoc, Nat.add_comm 1 n]

/-- Settles O48: a run that has ended is quiet for every number of boundaries, and stays so. -/
theorem endedRunStays : Obligations.EndedRunStays := by
  intro s endPc h
  refine ⟨fun n hpc hq => run_at_end n (hpc ▸ h) hq, fun ⟨hpc, hq⟩ n => ?_⟩
  refine ⟨_, run_at_end n (hpc ▸ h) (hq.imp id fun hirq k _ => hirq k), ⟨hpc, hq.imp id fun hirq k => ?_⟩, rfl, rfl, rfl,
    fun _ => rfl, fun _ => rfl⟩
  rw [← hirq (n + k)]
  simp [State.withInput, State.irqAfter, Nat.add_assoc]

end Sys2Proof.Machine
end

section
/-! PROOFS. The statement about the accesses of a step (R44). A step is its listed accesses, up to the first that stops it, and
then an ending that no longer looks at memory; `Accounted` says this of an outcome as a function of memory, and is built up
access by access. -/

namespace Sys2Proof.Machine

/-! ### States and outcomes with another memory -/

/-- The state with another memory. -/
def State.withMem (s : State) (m : Memory) : State := { s with mem := m }

/-- The outcome with another memory in a next state. -/
def withMemory (r : Result) (m : Memory) : Result :=
  match r with
  | .next t => .next (t.withMem m)
  | .fault f => .fault f
  | .refused why => .refused why

/-- An outcome of a step whose accesses can all be made. -/
def Ends (r : Result) : Prop :=
  (∃ t, r = .next t) ∨ r = .refused .shiftCount16To31 ∨ ∃ why, r = .refused (refusalOf why)

/-- The outcome of the accesses at a state: that of the first that stops, else `r`. -/
def State.stopped (s : State) (accesses : List Access) (r : Result) : Result := (accesses.findSome? s.stopAt).getD r

theorem State.stopped_cons (s : State) (x : Access) (l : List Access) (r : Result) :
    s.stopped (x :: l) r = (s.stopAt x).getD (s.stopped l r) := by
  unfold State.stopped
  rw [List.findSome?_cons]
  cases s.stopAt x <;> rfl

/-- What stops an access is no next state. -/
theorem State.stopAt_ne_next {s t : State} {x : Access} : s.stopAt x ≠ some (.next t) := by
  cases x <;> unfold State.stopAt <;> (repeat' split) <;> nofun

/-- Memory `m` holds what the state's memory holds where `x` fetches or reads. -/
def Access.AgreesWith (x : Access) (s : State) (m : Memory) : Prop :=
  ∀ a, x = .fetch a ∨ x = .read a → Memory.readWord m a = s.word? a

/-- An access stops alike with any memory that agrees where it fetches or reads. -/
theorem Access.AgreesWith.stopAt {x : Access} {s : State} {m : Memory} (hm : x.AgreesWith s m) :
    (s.withMem m).stopAt x = s.stopAt x := by
  cases x with
  | fetch a =>
    have same : (s.withMem m).word? a = s.word? a := hm a (.inl rfl)
    simp only [State.stopAt, same]; rfl
  | read a =>
    have same : (s.withMem m).word? a = s.word? a := hm a (.inr rfl)
    simp only [State.stopAt, same]; rfl
  | write a v => rfl

/-- A fetch with such a memory stops as `stopAt` says, else hands on the state's word. -/
theorem State.fetchWord_withMem {s : State} {m : Memory} {a : Word} (hm : (Access.fetch a).AgreesWith s m) (k : Word → Result) :
    (s.withMem m).fetchWord a k = (s.stopAt (.fetch a)).getD (k ((s.word? a).getD 0#16)) := by
  have same : (s.withMem m).word? a = s.word? a := hm a (.inl rfl)
  rw [State.fetchWord_stopAt, hm.stopAt, same]
  cases s.stopAt (.fetch a) <;> rfl

/-- So does a data read. -/
theorem State.readData_withMem {s : State} {m : Memory} {a : Word} (hm : (Access.read a).AgreesWith s m) (k : Word → Result) :
    (s.withMem m).readData a k = (s.stopAt (.read a)).getD (k ((s.word? a).getD 0#16)) := by
  have same : (s.withMem m).word? a = s.word? a := hm a (.inr rfl)
  rw [State.readData_stopAt, hm.stopAt, same]
  cases s.stopAt (.read a) <;> rfl

/-- A write needs storage only. -/
theorem State.needStorage_withMem (s : State) (m : Memory) (a v : Word) (r : Result) :
    (s.withMem m).needStorage a r = (s.stopAt (.write a v)).getD r := by
  rw [State.needStorage_stopAt (v := v), Access.AgreesWith.stopAt (by simp [Access.AgreesWith])]
  cases s.stopAt (.write a v) <;> rfl

/-! ### Outcomes that their accesses account for -/

/-- The outcome `f m`, with memory `m`, is that of the accesses at `s`, and past them an ending which looks at memory no more, with
the listed writes done: for every memory that agrees with the state's where they fetch or read. -/
def Accounted (s : State) (accesses : List Access) (f : Memory → Result) : Prop :=
  ∃ r, Ends r ∧ ∀ m, (∀ x ∈ accesses, x.AgreesWith s m) →
    f m = s.stopped accesses (withMemory r (accesses.foldl Access.applyTo m))

section
variable {s : State} {l : List Access} {f : Memory → Result}

/-- Going on to `t`, with memory as it is, needs no access. (The outcome at the state's own memory says which `t`.) -/
theorem accounted_next {t : State} (_ : f s.mem = .next t) (h : ∀ m, f m = .next (t.withMem m)) : Accounted s [] f :=
  ⟨.next t, .inl ⟨t, rfl⟩, fun m _ => h m⟩

theorem accounted_refused {why : Refusal} (hends : Ends (.refused why)) (h : ∀ m, f m = .refused why) : Accounted s [] f :=
  ⟨.refused why, hends, fun m _ => h m⟩

/-- A fetch before accounted accesses. -/
theorem accounted_fetch {a : Word} {g : Word → Memory → Result} (h : ∀ m, f m = (s.withMem m).fetchWord a fun v => g v m)
    (hg : Accounted s l (g ((s.word? a).getD 0#16))) : Accounted s (.fetch a :: l) f := by
  obtain ⟨r, hends, hr⟩ := hg
  refine ⟨r, hends, fun m hm => ?_⟩
  obtain ⟨hx, hl⟩ := List.forall_mem_cons.1 hm
  rw [h, State.fetchWord_withMem hx, State.stopped_cons, hr m hl]; rfl

/-- A data read before accounted accesses. -/
theorem accounted_read {a : Word} {g : Word → Memory → Result} (h : ∀ m, f m = (s.withMem m).readData a fun v => g v m)
    (hg : Accounted s l (g ((s.word? a).getD 0#16))) : Accounted s (.read a :: l) f := by
  obtain ⟨r, hends, hr⟩ := hg
  refine ⟨r, hends, fun m hm => ?_⟩
  obtain ⟨hx, hl⟩ := List.forall_mem_cons.1 hm
  rw [h, State.readData_withMem hx, State.stopped_cons, hr m hl]; rfl

/-- A write before accounted writes: they see the word written. -/
theorem accounted_write {a v : Word} {g : Memory → Result}
    (h : ∀ m, f m = (s.withMem m).needStorage a (g (Memory.writeWord m a v)))
    (hl : ∀ x ∈ l, ∀ m, x.AgreesWith s m) (hg : Accounted s l g) : Accounted s (.write a v :: l) f := by
  obtain ⟨r, hends, hr⟩ := hg
  refine ⟨r, hends, fun m _ => ?_⟩
  rw [h, State.needStorage_withMem s m a v, State.stopped_cons, hr _ fun x hx => hl x hx _]; rfl

/-- A form that writes one word and goes on to `t`, which the outcome at the state's own memory names. -/
theorem accounted_store {a v : Word} {t : State} (_ : f s.mem = s.needStorage a (.next t))
    (h : ∀ m, f m = (s.withMem m).needStorage a (.next (t.withMem (Memory.writeWord m a v)))) :
    Accounted s [.write a v] f :=
  accounted_write (g := fun m => .next (t.withMem m)) h nofun (accounted_next rfl fun _ => rfl)

/-- A fetch of a word that holds no value ends there. -/
theorem accounted_fetch_none {a : Word} (hw : s.word? a = none) {g : Word → Memory → Result}
    (h : ∀ m, f m = (s.withMem m).fetchWord a fun v => g v m) : Accounted s [.fetch a] f := by
  refine ⟨.refused .shiftCount16To31, .inr (.inl rfl), fun m hm => ?_⟩
  have stops : ∃ r, s.stopAt (.fetch a) = some r := by
    cases hs : s.hasStorage a <;> cases hg : s.writtenGuards a <;> simp [State.stopAt, hs, hg, hw]
  obtain ⟨r, hr⟩ := stops
  rw [h, State.fetchWord_withMem (hm _ (List.mem_singleton_self _)), State.stopped_cons, hr]; rfl

/-- The end of a step is accounted for by the same accesses. -/
theorem accounted_endStep (h : Accounted s l f) : Accounted s l fun m => endStep (f m) := by
  obtain ⟨r, hends, hr⟩ := h
  refine ⟨endStep r, ?_, fun m hm => ?_⟩
  · rcases hends with ⟨t, rfl⟩ | rfl | ⟨why, rfl⟩
    · exact .inl ⟨_, rfl⟩
    · exact .inr (.inl rfl)
    · exact .inr (.inr ⟨why, rfl⟩)
  · simp only [hr m hm, State.stopped]
    cases hstop : l.findSome? s.stopAt with
    | none => cases r <;> rfl
    | some r' =>
      obtain ⟨x, _, hx⟩ := List.exists_of_findSome?_eq_some hstop
      cases r' with
      | next t => exact absurd hx State.stopAt_ne_next
      | fault | refused => rfl

end

/-! ### Instructions and steps -/

/-- The accesses of an instruction account for it. -/
theorem exec_accounted (i : Instr) (s : State) : Accounted s (dataAccesses i s) fun m => exec i (s.withMem m) := by
  cases i with
  | lsl d n | lsr d n =>
    by_cases hn : n.toNat < 16
    · exact accounted_next (s.shiftInto_of hn d _) fun m => (s.withMem m).shiftInto_of hn d _
    · exact accounted_refused (.inr (.inl rfl)) fun m => State.shiftInto_refused.2 (decide_eq_false hn)
  | addReg | addShort | addLong | subReg | andReg | andLong | notReg | orReg | orLong | xorReg | xorLong | sfa | sti | jumpr
  | jumpaReg | jumpaLong | jumpv | jumpc | jumpnc | jumpn | jumpnn | jumpz | jumpnz => exact accounted_next rfl fun _ => rfl
  | loadReg | loadShort | loadLong | pop | ret => exact accounted_read (fun _ => rfl) (accounted_next rfl fun _ => rfl)
  | reti => exact accounted_read (fun _ => rfl) (accounted_read (fun _ => rfl) (accounted_next rfl fun _ => rfl))
  | storeReg | storeShort | storeLong | push | callReg | callShort | callLong =>
    exact accounted_store rfl fun _ => rfl

/-- The second push of interrupt entry, with memory `m` after the first. -/
def State.secondPush (s : State) (layout : FlagsLayout) (vector : Word) (m : Memory) : Result :=
  s.needStorage (s.sp - 1#16 - 1#16) (.next ((s.interruptEntry layout vector).withMem
    (Memory.writeWord m (s.sp - 1#16 - 1#16) (layout.pack s.flags s.ie))))

/-- The two writes of interrupt entry account for it. -/
theorem takeInterrupt_accounted (s : State) (layout : FlagsLayout) (vector : Word) :
    Accounted s (s.entryAccesses layout) fun m => (s.withMem m).takeInterrupt layout vector :=
  accounted_write (g := s.secondPush layout vector) (fun _ => rfl) (by simp [Access.AgreesWith])
    (accounted_store rfl fun _ => rfl)

/-- The fetch of an instruction and the accesses of that instruction account for fetching and running it. -/
theorem fetchInstr_accounted {s : State} (hc : s.interruptCondition = false) :
    Accounted s s.stepAccesses fun m => (s.withMem m).fetchInstr fun i => exec i (s.withMem m) := by
  rw [State.stepAccesses, if_neg (by simp [hc])]
  cases hw0 : s.word? s.pc with
  | none => exact accounted_fetch_none hw0 fun _ => rfl
  | some w0 =>
    refine accounted_fetch (fun _ => rfl) ?_
    simp only [hw0, Option.getD_some]
    rcases decodeHead w0 with why | (i | complete)
    · exact accounted_refused (.inr (.inr ⟨why, rfl⟩)) fun _ => rfl
    · exact exec_accounted i s
    · cases hw1 : s.word? (s.pc + 1#16) with
      | none => exact accounted_fetch_none hw1 fun _ => rfl
      | some imm =>
        refine accounted_fetch (fun _ => rfl) ?_
        simp only [hw1, Option.getD_some]
        exact exec_accounted (complete imm) s

/-- The accesses of a step account for it. -/
theorem step_accounted (s : State) : Accounted s s.stepAccesses fun m => step (s.withMem m) := by
  cases hc : s.interruptCondition with
  | true =>
    have entry : (fun m => step (s.withMem m)) =
        fun m => endStep ((s.withMem m).takeInterrupt Config.flagsLayout Config.intVector) :=
      funext fun m => step_of_interrupt (s := s.withMem m) hc
    rw [entry, State.stepAccesses, if_pos hc]
    exact accounted_endStep (takeInterrupt_accounted s _ _)
  | false =>
    have instruction : (fun m => step (s.withMem m)) =
        fun m => endStep ((s.withMem m).fetchInstr fun i => exec i (s.withMem m)) :=
      funext fun m => step_of_no_interrupt (s := s.withMem m) hc
    rw [instruction]
    exact accounted_endStep (fetchInstr_accounted hc)

/-- Where the accesses of a step that goes on are done, none of them stops. -/
theorem State.stopped_next {s t : State} {l : List Access} {r : Result} (h : s.stopped l r = .next t) :
    l.findSome? s.stopAt = none ∧ r = .next t := by
  cases hstop : l.findSome? s.stopAt with
  | none => exact ⟨rfl, by rwa [State.stopped, hstop] at h⟩
  | some r' =>
    obtain ⟨x, _, hx⟩ := List.exists_of_findSome?_eq_some hstop
    rw [State.stopped, hstop, Option.getD_some] at h
    exact absurd (h ▸ hx) State.stopAt_ne_next

/-- Settles O49: the four clauses read off `step_accounted`, the writes and the stops at the state's own memory, the reads at any
memory that agrees. -/
theorem accessesAccountForStep : Obligations.AccessesAccountForStep := by
  intro s
  obtain ⟨r, hends, hr⟩ := step_accounted s
  have agreeing : ∀ m, (∀ a, Access.fetch a ∈ s.stepAccesses ∨ Access.read a ∈ s.stepAccesses →
      Memory.readWord m a = s.word? a) → ∀ x ∈ s.stepAccesses, x.AgreesWith s m := by
    rintro m hm x hx a (rfl | rfl)
    · exact hm a (.inl hx)
    · exact hm a (.inr hx)
  have here : step s = s.stopped s.stepAccesses (withMemory r (s.stepAccesses.foldl Access.applyTo s.mem)) :=
    hr s.mem (agreeing _ fun _ _ => rfl)
  have goesOn : ∀ {t}, step s = .next t → s.stepAccesses.findSome? s.stopAt = none ∧
      ∃ u, r = .next u ∧ t = u.withMem (s.stepAccesses.foldl Access.applyTo s.mem) := by
    intro t ht
    obtain ⟨hnone, hu⟩ := State.stopped_next (here.symm.trans ht)
    cases r with
    | next u => exact ⟨hnone, u, rfl, (Host.Outcome.next.inj hu).symm⟩
    | fault | refused => cases hu
  refine ⟨fun t ht => ?writes, fun t m ht hm => ?reads, fun r' hstop => ?stops, fun hnone => ?completes⟩
  case writes =>
    obtain ⟨_, u, _, rfl⟩ := goesOn ht
    rfl
  case reads =>
    obtain ⟨hnone, u, rfl, rfl⟩ := goesOn ht
    refine (hr m (agreeing m hm)).trans ?_
    rw [State.stopped, hnone]; rfl
  case stops => rw [here, State.stopped, hstop]; rfl
  case completes =>
    rw [here, State.stopped, hnone]
    rcases hends with ⟨u, rfl⟩ | rfl | ⟨why, rfl⟩
    · exact .inl ⟨_, rfl⟩
    · exact .inr (.inl rfl)
    · exact .inr (.inr ⟨why, rfl⟩)

end Sys2Proof.Machine
end
